-- ==== Sys2Proof/Word.lean ====
section
/-! DEFINITION. The two word types of the block's interface: the BF16 word of its ports and the request word. -/

namespace Sys2Proof

/-- A BF16 word, the argument or the result of a request (30_encoding.md rules R60, R62). -/
abbrev Word := BitVec 16

/-- The request word `{base2, x_raw}`: bit 16 is `base2`, bits 15 to 0 are `x_raw`
(30_encoding.md rule R61). -/
abbrev ReqWord := BitVec 17

end Sys2Proof
end

