-- ==== Sys2Proof/Syntax.lean ====
section
/-! DEFINITION. The block's two operations, one constructor for each row of spec/opcode_table.json. -/

namespace Sys2Proof

/-- The operations of 30_encoding.md rule R64. All of `req[15:0]` is the operand, so each constructor
carries the whole BF16 argument `x_raw`; its sign, exponent and mantissa fields are read by the codec. -/
inductive Instr where
  /-- `EXP2 x_raw`, `req[16] = 1`: an approximation of 2^x (44_dispatcher.md rule R170). -/
  | exp2 (x : Word)
  /-- `EXPE x_raw`, `req[16] = 0`: an approximation of e^x (44_dispatcher.md rule R171). -/
  | expE (x : Word)
  deriving DecidableEq, Repr

end Sys2Proof
end

