-- ==== Sys2Proof/WellFormed.lean ====
section
/-! DEFINITION. Well-formedness of instructions and of numbers offered as request words. The checks on a
configuration (parameters and coefficient table) stand in Machine/Geometry.lean. -/

namespace Sys2Proof

/-- Every operation on every operand is well formed: "All `2^17` request words are legal"
(30_encoding.md rule R65). The operand's width is carried by its type. -/
def Instr.wellFormed : Instr → Bool
  | .exp2 _ => true
  | .expE _ => true

/-- A number is a request word when it fits the 17 bits of 30_encoding.md rule R61; there is no other
length or form (rule R69). -/
def isRequestWord (n : Nat) : Bool := decide (n < 2 ^ 17)

end Sys2Proof
end

