-- ==== Sys2Proof/Decode.lean ====
section
/-! DEFINITION. The decoder of request words, the encoder written from the same table, and the request
notation of the spec. -/

namespace Sys2Proof

/-- The mode bit `req[16]`, the port `base2` (30_encoding.md rule R61). -/
def ReqWord.mode (w : ReqWord) : Bool := w.getLsbD 16

/-- The operand `x_raw = req[15:0]` (30_encoding.md rules R61, R64). -/
def ReqWord.operand (w : ReqWord) : Word := w.extractLsb' 0 16

/-- The mode an operation is requested with, the value of `base2` (30_encoding.md rule R60). -/
def Instr.base2 : Instr → Bool
  | .exp2 _ => true
  | .expE _ => false

/-- The argument `x_raw` of an operation. -/
def Instr.operand : Instr → Word
  | .exp2 x => x
  | .expE x => x

/-- The operation map of 30_encoding.md rule R64: `req[16] = 1` is EXP2 and `req[16] = 0` is EXPE. Total:
rule R65 leaves no reserved word. -/
def decodeWord (w : ReqWord) : Instr :=
  if w.mode then .exp2 w.operand else .expE w.operand

/-- Why a number is not decoded. -/
inductive DecodeError where
  /-- The number does not fit the 17 bits of a request word (30_encoding.md rules R61, R69). -/
  | notARequestWord
  deriving DecidableEq, Repr

/-- Decoding of any number: a 17-bit request word decodes, and anything longer is rejected by name. -/
def decode (n : Nat) : Except DecodeError Instr :=
  if isRequestWord n then .ok (decodeWord (BitVec.ofNat 17 n)) else .error .notARequestWord

/-- Encoding by 30_encoding.md rules R61 and R70: `EXP2 0xHHHH` is `0x1HHHH` and `EXPE 0xHHHH` is
`0x0HHHH`. -/
def encode : Instr → ReqWord
  | .exp2 x => BitVec.ofNat 17 (0x10000 + x.toNat)
  | .expE x => BitVec.ofNat 17 (0x00000 + x.toNat)

/-- The instruction the decoder reads from an instruction whose bits are `w`, numbered as
spec/opcode_table.json numbers them. Bits above `nbits` count as 0; the spec serialises no bytes
(20_memory.md rule R44), so the number is the request word itself. -/
def decodeTableWord (nbits w : Nat) : Option Instr :=
  match decode (w % 2 ^ nbits) with
  | .ok i => some i
  | .error _ => none

/-- One upper-case hexadecimal digit (00_scope.md rule R18). -/
def hexDigit (n : Nat) : Char :=
  if n < 10 then Char.ofNat (48 + n) else Char.ofNat (55 + n)

/-- A 16-bit word as `0x` and four upper-case digits (00_scope.md rule R18). -/
def hexWord (x : Word) : String :=
  String.ofList ['0', 'x', hexDigit (x.toNat / 4096 % 16), hexDigit (x.toNat / 256 % 16),
    hexDigit (x.toNat / 16 % 16), hexDigit (x.toNat % 16)]

/-- The request notation `EXP2 0xHHHH` or `EXPE 0xHHHH` (30_encoding.md rule R70). -/
def Instr.asm : Instr → String
  | .exp2 x => "EXP2 " ++ hexWord x
  | .expE x => "EXPE " ++ hexWord x

end Sys2Proof
end

