-- ==== Sys2Proof/Machine/Records.lean ====
section
/-! DEFINITION. The working values that pass between the sub-blocks of one evaluation
(10_state.md rules R24 to R27, 30_encoding.md rule R72). They are plain data of one evaluation and not
part of State: no working value survives a request (10_state.md rule R28). A value that the spec types
`u_W` or `s_W` is held as the mathematical integer the spec gives it (00_scope.md rule R17); that it fits
its width is stated in the obligations. -/

namespace Sys2Proof.Machine

/-- The codec's status flags (10_state.md rule R24, 40_float_codec.md rule R81). -/
structure Status where
  isZero     : Bool
  isDenormal : Bool
  isInf      : Bool
  isNaN      : Bool
  deriving DecidableEq, Repr

/-- DecomposedFloat, the codec's output record (10_state.md rule R24). -/
structure DecomposedFloat where
  sign             : Bool
  unbiasedExponent : Int
  mantissaBits     : BitVec 7
  hiddenBit        : Bool
  status           : Status
  deriving DecidableEq, Repr

/-- The range reducer's outputs (10_state.md rule R25): `bias` is `u_INT_W`, `frac` is `u_FRAC_W`. -/
structure Reduced where
  bias : Nat
  frac : Nat
  deriving DecidableEq, Repr

/-- The evaluator's outputs, PolyResult (10_state.md rule R26): `mant` is `u_POLY_OUT_W` with `POLY_F`
fractional bits, `polyExp` is `s_PEXP_W`. -/
structure PolyResult where
  pzero   : Bool
  mant    : Nat
  polyExp : Int
  deriving DecidableEq, Repr, Inhabited

/-- The result class handed to recomposition (10_state.md rule R27). -/
inductive RoundClass where
  | zero
  | subnormal
  | normal
  | inf
  deriving DecidableEq, Repr

/-- The rounder's outputs (10_state.md rule R27, 30_encoding.md rule R72): `finalExp` is `s_FEXP_W`,
`kept` is `u_(M_W+2)`. -/
structure Rounded where
  cls      : RoundClass
  finalExp : Int
  kept     : Nat
  deriving DecidableEq, Repr

/-- The ten rows of the dispatcher's priority table (44_dispatcher.md rule R160), in its order. -/
inductive Row where
  /-- Row 1: a NaN operand. -/
  | nan
  /-- Row 2: a zero of either sign. -/
  | zero
  /-- Row 3: +Infinity. -/
  | posInf
  /-- Row 4: -Infinity. -/
  | negInf
  /-- Row 5: positive finite, `E < POS_E_ONE`. -/
  | posSmall
  /-- Row 6: positive finite, `E >= POS_E_INF`. -/
  | posLarge
  /-- Row 7: positive finite, otherwise; the placeholder. -/
  | posPlaceholder
  /-- Row 8: negative finite, `E < NEG_E_MIN`. -/
  | negSmall
  /-- Row 9: negative finite, `E > NEG_E_MAX`. -/
  | negLarge
  /-- Row 10: negative finite in the window; the datapath. -/
  | window
  deriving DecidableEq, Repr

end Sys2Proof.Machine
end

