-- ==== Sys2Proof/Config.lean ====
section
/-! DEFINITION. What an implementation fixes: the target format, the free parameters of the design, and
the values the spec leaves open. Formulas over them stand in Machine/Geometry.lean. -/

namespace Sys2Proof

/-- Mantissa bits of the target format, `M_W` (00_scope.md rule R9). -/
abbrev Target.mW : Nat := 7

/-- The target format's exponent bias, `BIAS_T` (00_scope.md rule R9). -/
abbrev Target.biasT : Int := 127

/-- `EMIN_N = 1 - BIAS_T`, the minimum normal exponent (00_scope.md rule R9). -/
abbrev Target.eMinN : Int := -126

/-- `EMAX_N`, the maximum normal exponent (00_scope.md rule R9). -/
abbrev Target.eMaxN : Int := 127

/-- The coefficient ROM: one packed `2*W_COEFF`-bit entry at each index (20_memory.md rules R40, R43;
30_encoding.md rule R66). The ROM is not byte-addressable; an entry is held as its bit pattern read as an
unsigned number. -/
abbrev Memory := List Nat

/-- The free parameters of 00_scope.md rule R11 but for the coefficient table. Derived widths are computed
from them (rules R10, R12). -/
structure Params where
  /-- `LUT_ADDR_W`, the LUT address width. -/
  lutAddrW : Nat
  /-- `W_COEFF`, total bits of one coefficient. -/
  wCoeff   : Nat
  /-- `I_COEFF`, integer bits of one coefficient. -/
  iCoeff   : Nat
  /-- `F_LOG2E`, fractional bits of the log2(e) constant. -/
  fLog2e   : Nat
  /-- `LOG2E_FX`, the log2(e) constant's bit pattern. -/
  log2eFx  : Nat
  /-- `NEG_E_MIN`, lowest unbiased exponent of the negative window. -/
  negEMin  : Int
  /-- `NEG_E_MAX`, highest unbiased exponent of the negative window. -/
  negEMax  : Int
  /-- `POS_E_ONE`: positive finite arguments with an exponent below it give 1.0. -/
  posEOne  : Int
  /-- `POS_E_INF`: positive finite arguments with an exponent at or above it give +Infinity. -/
  posEInf  : Int
  /-- `LATENCY`, cycles from request to response; 0 is the combinational form (70_reset_and_hazards.md rule
  R203, 92_eei_decisions.md D20). -/
  latency  : Nat
  deriving DecidableEq, Repr

namespace Config

/-- The hardware's coefficient table, OPEN in the spec (00_scope.md rule R15, 92_eei_decisions.md D3). No
body: nothing can be proved of its contents. -/
opaque coeffTable : Memory

/-- A value of `y_raw` that the spec leaves unspecified (93_implementation_defined.md U5, U6). No body: a
fresh argument gives a fresh value that no proof can see. -/
opaque unspecifiedResponse : Nat → Word

/-- What the evaluator would give for a fraction whose line the spec gives no value: a negative line value
(42_lut_poly_evaluator.md rule R129) or an index outside the ROM (20_memory.md rule R42). No admitted table
and no fraction of the range reducer reaches it; no body, so no claim can rest on it. -/
opaque unstatedPoly : Nat → Machine.PolyResult

end Config

end Sys2Proof
end

