-- ==== Sys2Proof/Machine/Bits.lean ====
section
/-! DEFINITION. The notation primitives of 00_scope.md rules R16 and R17 on mathematical integers. -/

namespace Sys2Proof.Machine

/-- `v[hi:lo]`, the field of bits `hi` down to `lo` inclusive, read as an unsigned integer
(00_scope.md rule R16). -/
def bits (v hi lo : Nat) : Nat := v / 2 ^ lo % 2 ^ (hi + 1 - lo)

/-- `v << k` (00_scope.md rule R17). -/
def shl (v k : Nat) : Nat := v * 2 ^ k

/-- `v >> k` (00_scope.md rule R17). -/
def shr (v k : Nat) : Nat := v / 2 ^ k

/-- `msb(v)` for `v > 0`: the largest `i` with `v[i] = 1`, the priority encoder (00_scope.md rule R17). -/
def msb (v : Nat) : Nat := Nat.log2 v

/-- `u_W(v)`: `v` fits an unsigned `W`-bit register (00_scope.md rule R17). -/
abbrev fitsU (w v : Nat) : Prop := v < 2 ^ w

/-- `s_W(v)`: `v` fits a signed two's-complement `W`-bit register (00_scope.md rule R17). -/
abbrev fitsS (w : Nat) (v : Int) : Prop := -(2 ^ (w - 1) : Int) ≤ v ∧ v < (2 ^ (w - 1) : Int)

/-- The number of bits of a magnitude: 0 for 0, else one more than the index of its top set bit. -/
def bitLength (n : Nat) : Nat := if n = 0 then 0 else Nat.log2 n + 1

/-- The least signed two's-complement width that holds every integer from `lo` to `hi`, for
`lo < 0`: it is how the ranges of 00_scope.md rule R12 give `PEXP_W` and `FEXP_W`. -/
def signedWidth (lo hi : Int) : Nat := 1 + max (bitLength (-lo - 1).toNat) (bitLength hi.toNat)

end Sys2Proof.Machine
end

