-- ==== Sys2Proof/Machine/Geometry.lean ====
section
/-! DEFINITION. The derived widths of the design, the constraints a configuration must meet, the reference
parameters, and the coefficient ROM with its admission predicate. -/

namespace Sys2Proof.Machine

open Sys2Proof.Target

/-! Derived widths, each by its formula of 00_scope.md rule R12. -/

/-- `LUT_SIZE`. -/
def lutSize (p : Params) : Nat := 2 ^ p.lutAddrW
/-- `SIG_W`, hidden bit and mantissa. -/
def sigW : Nat := mW + 1
/-- `F_COEFF` (00_scope.md rule R11). -/
def fCoeff (p : Params) : Nat := p.wCoeff - p.iCoeff
/-- `PROD_F`. -/
def prodF (p : Params) : Nat := mW + p.fLog2e
/-- `FRAC_W`, sized by the widest right shift (90_conflicts.md C7). -/
def fracW (p : Params) : Nat := ((prodF p : Int) - p.negEMin).toNat
/-- `INT_W`. -/
def intW (p : Params) : Nat := (2 + p.negEMax).toNat
/-- `ALIGN_W`. -/
def alignW (p : Params) : Nat := intW p + fracW p
/-- `AX_W`. -/
def axW (p : Params) : Nat := p.wCoeff + fracW p
/-- `ACC_F`. -/
def accF (p : Params) : Nat := fCoeff p + fracW p
/-- `ACC_W`. -/
def accW (p : Params) : Nat := max (axW p + 1) (p.wCoeff + fracW p + 1) + 1
/-- `POLY_OUT_W`, equal to `ACC_W` so that no bit of `res` is dropped (90_conflicts.md C5). -/
def polyOutW (p : Params) : Nat := accW p
/-- `POLY_F`. -/
def polyF (p : Params) : Nat := polyOutW p - 1
/-- `PEXP_W`, the signed width of `-ACC_F .. I_COEFF-1`. -/
def pexpW (p : Params) : Nat := signedWidth (-(accF p : Int)) ((p.iCoeff : Int) - 1)
/-- `FEXP_W`, the signed width of `-ACC_F - (2^INT_W - 1) .. EMAX_N + 1`. -/
def fexpW (p : Params) : Nat := signedWidth (-(accF p : Int) - (2 ^ intW p - 1)) (eMaxN + 1)

/-- The reference values of 00_scope.md rule R11, this hardware's. `LATENCY` is open there; 0 is the
combinational form, "the reference form" of 70_reset_and_hazards.md rule R203. -/
def Params.reference : Params where
  lutAddrW := 6
  wCoeff := 16
  iCoeff := 0
  fLog2e := 16
  log2eFx := 0x17154
  negEMin := -9
  negEMax := 7
  posEOne := -8
  posEInf := 7
  latency := 0

/-- The constraints a set of parameters can break: 00_scope.md rule R13, and two that other rules need. -/
inductive Constraint where
  /-- `LUT_ADDR_W >= 1` (rule R13). -/
  | lutAddrPositive
  /-- `LUT_ADDR_W <= FRAC_W` (rule R13). -/
  | lutAddrWithinFrac
  /-- `W_COEFF >= 1` (rule R13). -/
  | coeffPositive
  /-- `0 <= I_COEFF <= W_COEFF` (rule R13). -/
  | coeffIntegerBits
  /-- `F_LOG2E >= 1` (rule R13). -/
  | log2eFraction
  /-- `NEG_E_MIN < 0 <= NEG_E_MAX` (rule R13). -/
  | windowAroundZero
  /-- `NEG_E_MAX + 2 <= INT_W` (rule R13). -/
  | integerWidth
  /-- `POLY_F - M_W >= 1` (rule R13). -/
  | roundingShift
  /-- `LOG2E_FX` fits its `F_LOG2E + 1` bits (30_encoding.md rule R68). -/
  | log2eFits
  /-- `NEG_E_MIN > EMIN_N`: "a denormal has `E = -126 < NEG_E_MIN`" (44_dispatcher.md rule R169). DEDUCED,
  safe: assumption log 6. -/
  | windowOfNormals
  deriving DecidableEq, Repr

/-- Whether the parameters meet one constraint. -/
def Constraint.holds (p : Params) : Constraint → Bool
  | .lutAddrPositive   => decide (1 ≤ p.lutAddrW)
  | .lutAddrWithinFrac => decide (p.lutAddrW ≤ fracW p)
  | .coeffPositive     => decide (1 ≤ p.wCoeff)
  | .coeffIntegerBits  => decide (p.iCoeff ≤ p.wCoeff)
  | .log2eFraction     => decide (1 ≤ p.fLog2e)
  | .windowAroundZero  => decide (p.negEMin < 0 ∧ 0 ≤ p.negEMax)
  | .integerWidth      => decide (p.negEMax + 2 ≤ (intW p : Int))
  | .roundingShift     => decide (1 ≤ polyF p - mW)
  | .log2eFits         => decide (p.log2eFx < 2 ^ (p.fLog2e + 1))
  | .windowOfNormals   => decide (eMinN < p.negEMin)

/-- Every constraint, in the order they are checked. -/
def Constraint.all : List Constraint :=
  [.lutAddrPositive, .lutAddrWithinFrac, .coeffPositive, .coeffIntegerBits, .log2eFraction,
    .windowAroundZero, .integerWidth, .roundingShift, .log2eFits, .windowOfNormals]

/-- The parameters meet every constraint. -/
def Params.sound (p : Params) : Bool := Constraint.all.all (Constraint.holds p)

/-! The coefficient ROM. -/

/-- The slope, the lower half of an entry (30_encoding.md rule R66). -/
def entrySlope (p : Params) (e : Nat) : Nat := bits e (p.wCoeff - 1) 0

/-- The intercept, the upper half of an entry (30_encoding.md rule R66). -/
def entryIntercept (p : Params) (e : Nat) : Nat := bits e (2 * p.wCoeff - 1) p.wCoeff

/-- `ROM(j)`, the pair `(a_j, b_j)` (20_memory.md rule R41), for an index inside the address map
`0 .. LUT_SIZE-1` (rule R43). -/
def rom (p : Params) (m : Memory) (j : Nat) : Option (Nat × Nat) :=
  m[j]?.map fun e => (entrySlope p e, entryIntercept p e)

/-- The canonical form of the ROM: exactly `LUT_SIZE` entries of `2*W_COEFF` bits (10_state.md rule R29). -/
def Memory.wf (p : Params) (m : Memory) : Bool :=
  decide (m.length = lutSize p) && m.all fun e => decide (e < 2 ^ (2 * p.wCoeff))

/-- `hi_j`, the largest `frac` of segment `j` (42_lut_poly_evaluator.md rule R131). -/
def segmentTop (p : Params) (j : Nat) : Nat := (lutSize p - j) * 2 ^ (fracW p - p.lutAddrW) - 1

/-- Entry `j` meets 42_lut_poly_evaluator.md rule R131: its line stays positive on its segment, and both
coefficients have "magnitude <1" (an extra condition only when `I_COEFF > 0`, 90_conflicts.md C2). -/
abbrev EntryAdmitted (p : Params) (j e : Nat) : Prop :=
  entryIntercept p e * 2 ^ fracW p > entrySlope p e * segmentTop p j ∧
    entrySlope p e < 2 ^ fCoeff p ∧ entryIntercept p e < 2 ^ fCoeff p

/-- Every entry from index `j` on is admitted. -/
def admittedFrom (p : Params) : Nat → Memory → Bool
  | _, [] => true
  | j, e :: rest => decide (EntryAdmitted p j e) && admittedFrom p (j + 1) rest

/-- The well-formedness predicate of a coefficient table (42_lut_poly_evaluator.md rule R131;
93_implementation_defined.md U2, U4). -/
def Memory.admitted (p : Params) (m : Memory) : Bool := Memory.wf p m && admittedFrom p 0 m

/-- An admitted table, used only where `Config.coeffTable` is not one: every line is the constant
0xFFFF / 2^16. -/
def flatTable : Memory := List.replicate 64 0xFFFF0000

/-- The hardware's table: `Config.coeffTable`, known only to be admitted (42_lut_poly_evaluator.md rule
R131). Every admitted table is a possible value of the open constant, so what is proved of this table is
proved of each of them. -/
def hardwareTable : Memory :=
  if Memory.admitted Params.reference Config.coeffTable then Config.coeffTable else flatTable

theorem reference_sound : Params.sound Params.reference = true := by decide

theorem flatTable_admitted : Memory.admitted Params.reference flatTable = true := by decide

theorem hardwareTable_admitted : Memory.admitted Params.reference hardwareTable = true := by
  unfold hardwareTable
  split
  · assumption
  · exact flatTable_admitted

end Sys2Proof.Machine
end

