-- ==== Sys2Proof/Machine/PolyEvaluator.lean ====
section
/-! DEFINITION. The LUT polynomial evaluator (42_lut_poly_evaluator.md): coefficient selection, exact
multiply-accumulate and normalization. -/

namespace Sys2Proof.Machine

/-- `idx`, the top `LUT_ADDR_W` bits of `frac` (42_lut_poly_evaluator.md rule R121). -/
def lutIndex (p : Params) (frac : Nat) : Nat := bits frac (fracW p - 1) (fracW p - p.lutAddrW)

/-- `idx'`, the mirrored index that addresses the ROM (42_lut_poly_evaluator.md rule R121). -/
def mirroredIndex (p : Params) (frac : Nat) : Nat := lutSize p - 1 - lutIndex p frac

/-- `res = b_al - ax` in the signed accumulator, with `ACC_F` fractional bits
(42_lut_poly_evaluator.md rules R123, R124). -/
def lineValue (p : Params) (a b frac : Nat) : Int :=
  ((shl b (fracW p) : Nat) : Int) - ((a * frac : Nat) : Int)

/-- Normalization of `res > 0`: priority encoder, relative exponent and barrel shift
(42_lut_poly_evaluator.md rules R126, R127). -/
def normalizeLine (p : Params) (res : Nat) : PolyResult where
  pzero := false
  mant := shl res (polyOutW p - 1 - msb res)
  polyExp := (msb res : Int) - (accF p : Int)

/-- The evaluator's result on a selected pair: `pzero` for an exact zero (42_lut_poly_evaluator.md rule
R125). The spec gives a negative `res` no value (rule R129); an admitted table has none (rule R131). -/
def evalLine (p : Params) (a b frac : Nat) : PolyResult :=
  if lineValue p a b frac = 0 then { pzero := true, mant := 0, polyExp := 0 }
  else if lineValue p a b frac < 0 then Config.unstatedPoly frac
  else normalizeLine p (lineValue p a b frac).toNat

/-- POLY_EVAL (42_lut_poly_evaluator.md rule R120), with its one ROM read (rule R122). -/
def polyEval (p : Params) (m : Memory) (frac : Nat) : PolyResult :=
  match rom p m (mirroredIndex p frac) with
  | some (a, b) => evalLine p a b frac
  | none => Config.unstatedPoly frac

end Sys2Proof.Machine
end

