-- ==== Sys2Proof/Machine/Flags.lean ====
section
/-! DEFINITION. The internal flags: the codec's classification of a word and the rounder's guard, sticky and
round-up bits. The block has no architecturally visible flag (10_state.md rule R22, 60_exceptions.md rule
R182). -/

namespace Sys2Proof.Machine

/-- Bit 15, the sign: 1 means negative (30_encoding.md rule R62). -/
def signField (w : Word) : Bool := w.getLsbD 15

/-- Bits 14 to 7, the biased exponent (30_encoding.md rule R62). -/
def expField (w : Word) : BitVec 8 := w.extractLsb' 7 8

/-- Bits 6 to 0, the mantissa field (30_encoding.md rule R62). -/
def mantField (w : Word) : BitVec 7 := w.extractLsb' 0 7

/-- The status flags of a word, by the class table of 30_encoding.md rule R63 (40_float_codec.md rules R80,
R81). -/
def classify (w : Word) : Status where
  isNaN := expField w == 0xFF#8 && mantField w != 0#7
  isInf := expField w == 0xFF#8 && mantField w == 0#7
  isZero := expField w == 0x00#8 && mantField w == 0#7
  isDenormal := expField w == 0x00#8 && mantField w != 0#7

/-- The word is of none of the special classes, that is normal (40_float_codec.md rule R83). -/
def Status.isNormal (s : Status) : Bool := !(s.isNaN || s.isInf || s.isZero || s.isDenormal)

/-- The guard bit, immediately below the kept mantissa: `(mant >> (s-1)) mod 2`
(43_rounder_normalizer.md rules R140, R144). -/
def guardBit (mant s : Nat) : Bool := shr mant (s - 1) % 2 == 1

/-- The sticky bit, the OR of all bits below the guard bit: `(mant mod 2^(s-1)) != 0`
(43_rounder_normalizer.md rules R140, R144). -/
def stickyBit (mant s : Nat) : Bool := mant % 2 ^ (s - 1) != 0

/-- Round to nearest, ties to even: "round up iff `guard && (sticky || lsbOfKeptMantissa)`"
(43_rounder_normalizer.md rule R145). -/
def roundUp (guard sticky : Bool) (kept : Nat) : Bool := guard && (sticky || kept % 2 == 1)

end Sys2Proof.Machine
end

