-- ==== Sys2Proof/Machine/Operands.lean ====
section
/-! DEFINITION. The float codec: decomposition of an operand word and recomposition of a result word
(40_float_codec.md), and the special constants. -/

namespace Sys2Proof.Machine

open Sys2Proof.Target

/-- DECOMPOSE (40_float_codec.md rule R80). The exponent of a denormal is `1 - BIAS_T`, every other word's
is `ef - BIAS_T` (rule R82). -/
def decompose (w : Word) : DecomposedFloat where
  sign := signField w
  unbiasedExponent :=
    if (classify w).isDenormal then 1 - biasT else ((expField w).toNat : Int) - biasT
  mantissaBits := mantField w
  hiddenBit := (classify w).isNormal
  status := classify w

/-- The significand `{hiddenBit, mantissaBits}`, `u_SIG_W` with `M_W` fractional bits
(10_state.md rule R25). -/
def significand (d : DecomposedFloat) : Nat := d.hiddenBit.toNat * 2 ^ mW + d.mantissaBits.toNat

/-- `ONE` (40_float_codec.md rule R86). -/
def oneWord : Word := 0x3F80

/-- `PZERO` (40_float_codec.md rule R86). -/
def zeroWord : Word := 0x0000

/-- `PINF` (40_float_codec.md rule R86). -/
def infWord : Word := 0x7F80

/-- The quiet bit of a NaN, mantissa bit 6 (44_dispatcher.md rule R161). -/
def quietBit : Word := 0x0040

/-- FLOAT_RECO (40_float_codec.md rule R85): the sign bit is always 0, and a normal result's hidden bit
`kept[7]` is dropped. -/
def floatReco (r : Rounded) : Word :=
  match r.cls with
  | .zero => zeroWord
  | .inf => infWord
  | .subnormal => 0#1 ++ 0#8 ++ BitVec.ofNat 7 r.kept
  | .normal => 0#1 ++ BitVec.ofInt 8 (r.finalExp + biasT) ++ BitVec.ofNat 7 r.kept

end Sys2Proof.Machine
end

