-- ==== Sys2Proof/Machine/RangeReducer.lean ====
section
/-! DEFINITION. The range reducer (41_range_reducer.md): exact alignment of the scaled significand and its
split into an integer bias and a fraction. -/

namespace Sys2Proof.Machine

open Sys2Proof.Target

/-- The multiplier constant: 1.0 in base-2 mode and log2(e) in natural mode (41_range_reducer.md rule
R102). -/
def multiplier (p : Params) (base2 : Bool) : Nat := if base2 then shl 1 p.fLog2e else p.log2eFx

/-- The product `P = sig * K`, at full width (41_range_reducer.md rule R103). -/
def product (p : Params) (d : DecomposedFloat) (base2 : Bool) : Nat :=
  significand d * multiplier p base2

/-- The aligned magnitude `A = P << (E - NEG_E_MIN)` (41_range_reducer.md rules R100, R101). -/
def aligned (p : Params) (d : DecomposedFloat) (base2 : Bool) : Nat :=
  shl (product p d base2) (d.unbiasedExponent - p.negEMin).toNat

/-- RANGE_REDUCE (41_range_reducer.md rule R100). -/
def rangeReduce (p : Params) (d : DecomposedFloat) (base2 : Bool) : Reduced where
  bias := bits (aligned p d base2) (alignW p - 1) (fracW p)
  frac := bits (aligned p d base2) (fracW p - 1) 0

end Sys2Proof.Machine
end

