-- ==== Sys2Proof/Machine/Rounder.lean ====
section
/-! DEFINITION. The rounder and normalizer (43_rounder_normalizer.md): exponent combination, the one RNE
rounding, carry-out, the subnormal range and its promotion. -/

namespace Sys2Proof.Machine

open Sys2Proof.Target

/-- The extra right-shift positions of a subnormal-range result, `EMIN_N - finalExp`, else 0
(43_rounder_normalizer.md rule R142). -/
def extraShift (finalExp : Int) : Nat :=
  if finalExp < eMinN then (eMinN - finalExp).toNat else 0

/-- The rounding shift `s = (POLY_F - M_W) + extra` (43_rounder_normalizer.md rule R143). -/
def roundShift (p : Params) (finalExp : Int) : Nat := polyF p - mW + extraShift finalExp

/-- The kept mantissa after rounding, before any carry-out (43_rounder_normalizer.md rules R144, R145). -/
def roundedKept (p : Params) (mant : Nat) (finalExp : Int) : Nat :=
  let s := roundShift p finalExp
  let kept := shr mant s
  kept + (roundUp (guardBit mant s) (stickyBit mant s) kept).toNat

/-- A normal-range result: carry-out, then the overflow test (43_rounder_normalizer.md rules R146, R147). -/
def packNormal (kept : Nat) (finalExp : Int) : Rounded :=
  let carry := decide (kept = 2 ^ (mW + 1))
  let kept' := if carry then shr kept 1 else kept
  let finalExp' := if carry then finalExp + 1 else finalExp
  { cls := if finalExp' > eMaxN then .inf else .normal, finalExp := finalExp', kept := kept' }

/-- A subnormal-range result: zero, promotion to the minimum normal, or a subnormal
(43_rounder_normalizer.md rules R146, R148). -/
def packSubnormal (kept : Nat) (finalExp : Int) : Rounded :=
  if kept = 0 then { cls := .zero, finalExp := finalExp, kept := 0 }
  else if kept = 2 ^ mW then { cls := .normal, finalExp := eMinN, kept := kept }
  else { cls := .subnormal, finalExp := eMinN, kept := kept }

/-- RNE_PACK (43_rounder_normalizer.md rule R140); `sub` is decided before rounding (rule R142). -/
def rnePack (p : Params) (mant : Nat) (finalExp : Int) : Rounded :=
  if finalExp < eMinN then packSubnormal (roundedKept p mant finalExp) finalExp
  else packNormal (roundedKept p mant finalExp) finalExp

/-- ROUND_NORMALIZE (43_rounder_normalizer.md rule R140): the bias is subtracted (rule R141, 90_conflicts.md
C1), and `pzero` gives ZERO (rule R150). -/
def roundNormalize (p : Params) (r : PolyResult) (bias : Nat) : Rounded :=
  if r.pzero then { cls := .zero, finalExp := 0, kept := 0 }
  else rnePack p r.mant (r.polyExp - (bias : Int))

end Sys2Proof.Machine
end

