-- ==== Sys2Proof/Machine/State.lean ====
section
/-! DEFINITION. The machine's state, the reasons a step can stop, and the state after reset. -/

namespace Sys2Proof.Machine

/-- A configuration of the block: its parameters (00_scope.md rule R11) and its coefficient table (rule
R15), with the checks that admit them. "A model refuses a configuration that breaks one" (rule R13): an
ill-formed one cannot be built, so it is refused before any request (60_exceptions.md rule R180). -/
structure Configuration where
  params   : Params
  table    : Memory
  sound    : Params.sound params = true
  admitted : Memory.admitted params table = true
  deriving DecidableEq, Repr

/-- What the host does to the input ports in one coming cycle. -/
inductive PortEvent where
  /-- The host presents a request and holds it until the block has settled (30_encoding.md rule R61). -/
  | request (w : ReqWord)
  /-- No new request; the inputs stay as they are ("at most one request per cycle",
  70_reset_and_hazards.md rule R203). -/
  | idle
  /-- The inputs are changing and not yet stable (70_reset_and_hazards.md rule R203). The ports are the
  host's (30_encoding.md rule R60), so the value they end the cycle with is the event's: DESIGN CHOICE,
  assumption log 11. -/
  | changing (w : ReqWord)
  /-- The start-up load of a RAM-held coefficient table completes (70_reset_and_hazards.md rule R202). -/
  | loadComplete
  deriving DecidableEq, Repr

/-- What is known of `y_raw` from the input ports, in the combinational form. -/
inductive PortPhase where
  /-- `y_raw` is no function of the ports: no request has been made (10_state.md rule R31), or the inputs were
  already stable before the table held its final contents (70_reset_and_hazards.md rule R202). -/
  | unspecified
  /-- The inputs changed in the last cycle; they settle in a cycle in which they stay as they are
  (70_reset_and_hazards.md rule R203). -/
  | changing
  /-- The inputs have been stable, so `y_raw` is the response to what is on the ports
  (70_reset_and_hazards.md rule R203). -/
  | settled
  deriving DecidableEq, Repr

/-- The phase of inputs that have been stable for a cycle: `y_raw` is their response if the table holds its
final contents. -/
def PortPhase.ofStable (tableLoaded : Bool) : PortPhase := if tableLoaded then .settled else .unspecified

/-- No step of the block faults: "A model's step for this block therefore has no fault outcome"
(60_exceptions.md rule R180), so there is no fault reason. -/
inductive Fault where
  deriving DecidableEq, Repr

/-- Why something is refused. -/
inductive Refusal where
  /-- An instruction without a meaning. Raised by no arm of this model. Safe. -/
  | notModelled (mnemonic : String)
  /-- Raised by `Configuration.build`, before any request: the parameters break these
  constraints (00_scope.md rule R13, 93_implementation_defined.md U3). Safe. -/
  | illFormedParameters (broken : List Constraint)
  /-- Raised by `Configuration.build`, before any request: the coefficient table breaks
  42_lut_poly_evaluator.md rule R131 (93_implementation_defined.md U2, U4). Safe. -/
  | illFormedTable
  deriving DecidableEq, Repr

/-- The whole state. The block itself has no register, counter, flag or program counter (10_state.md rules
R20 to R23, R30); what it does have, and what its host holds, is here. -/
structure State where
  /-- The configuration, which no operation changes (70_reset_and_hazards.md rule R205). Its table is the
  block's one stored data (10_state.md rule R29). -/
  cfg : Configuration
  /-- The coefficient table holds its final contents (70_reset_and_hazards.md rules R201, R202). -/
  tableLoaded : Bool
  /-- Input port `base2` (30_encoding.md rule R60). -/
  base2 : Bool
  /-- Input port `x_raw` (30_encoding.md rule R60). -/
  xRaw : Word
  /-- Output port `y_raw` (30_encoding.md rule R60). -/
  yRaw : Word
  /-- Whether the inputs are stable and the combinational block has settled on them, so that `y_raw` is a
  function of them (10_state.md rule R31, 70_reset_and_hazards.md rule R203). -/
  phase : PortPhase
  /-- The responses in flight of a registered implementation, one place for each cycle of `LATENCY`, the
  next due first (70_reset_and_hazards.md rule R203). -/
  pipe : List (Option Word)
  /-- The HOST's coming port events, the next one first (10_state.md rule R21). -/
  events : List PortEvent
  /-- The HOST's list of responses received, oldest first (10_state.md rule R21). -/
  responses : List Word
  /-- The position in the HOST's request sequence, which "plays the role a program counter plays
  elsewhere" (10_state.md rule R21): how many requests have been issued. -/
  position : Nat
  /-- The MODEL's own counter of unspecified values drawn. -/
  freeCount : Nat
  deriving DecidableEq, Repr

/-- This hardware's configuration: the reference parameters and the open coefficient table. -/
def Configuration.hardware : Configuration where
  params := Params.reference
  table := hardwareTable
  sound := reference_sound
  admitted := hardwareTable_admitted

/-- The state at power-up of a block with a given configuration: nothing has been requested, nothing is in
flight, and the ROM holds its contents (70_reset_and_hazards.md rules R200, R201). `y_raw` "is unspecified"
before the first request (10_state.md rule R31), so it is the first free value. The input ports are the
host's to drive; the values named for them are DESIGN CHOICE, assumption log 3. -/
def State.powerUp (c : Configuration) : State where
  cfg := c
  tableLoaded := true
  base2 := false
  xRaw := 0
  yRaw := Config.unspecifiedResponse 0
  phase := .unspecified
  pipe := List.replicate c.params.latency none
  events := []
  responses := []
  position := 0
  freeCount := 1

/-- The machine right after reset (10_state.md rule R31, 70_reset_and_hazards.md rule R200). -/
def State.reset : State := State.powerUp Configuration.hardware

end Sys2Proof.Machine
end

