-- ==== Sys2Proof/Machine/Dispatcher.lean ====
section
/-! DEFINITION. The dispatcher (44_dispatcher.md): the priority table over the argument's class and
exponent, and the datapath it selects. -/

namespace Sys2Proof.Machine

/-- The first row of 44_dispatcher.md rule R160 whose condition holds. A word that is neither NaN nor zero
nor infinite is finite, so a denormal takes the finite rows (rule R166). -/
def selectRow (p : Params) (d : DecomposedFloat) : Row :=
  if d.status.isNaN then .nan
  else if d.status.isZero then .zero
  else if d.status.isInf && !d.sign then .posInf
  else if d.status.isInf && d.sign then .negInf
  else if !d.sign && decide (d.unbiasedExponent < p.posEOne) then .posSmall
  else if !d.sign && decide (d.unbiasedExponent ≥ p.posEInf) then .posLarge
  else if !d.sign then .posPlaceholder
  else if decide (d.unbiasedExponent < p.negEMin) then .negSmall
  else if decide (d.unbiasedExponent > p.negEMax) then .negLarge
  else .window

/-- The argument reaches the datapath: a negative normal word in the window (44_dispatcher.md rule R169,
41_range_reducer.md rule R100). -/
def InWindow (p : Params) (x : Word) : Prop :=
  (decompose x).sign = true ∧ (decompose x).hiddenBit = true ∧
    p.negEMin ≤ (decompose x).unbiasedExponent ∧ (decompose x).unbiasedExponent ≤ p.negEMax

/-- DATAPATH (44_dispatcher.md rule R169). -/
def datapath (c : Configuration) (d : DecomposedFloat) (base2 : Bool) : Word :=
  let reduced := rangeReduce c.params d base2
  let poly := polyEval c.params c.table reduced.frac
  floatReco (roundNormalize c.params poly reduced.bias)

/-- The response `y_raw` to the request `{base2, x_raw}`: the constant of the selected row, or the datapath
(44_dispatcher.md rules R160 to R171). The same rows serve both modes (rule R173). -/
def respond (c : Configuration) (base2 : Bool) (x : Word) : Word :=
  match selectRow c.params (decompose x) with
  | .nan => x ||| quietBit
  | .zero => oneWord
  | .posInf => infWord
  | .negInf => zeroWord
  | .posSmall => oneWord
  | .posLarge => infWord
  | .posPlaceholder => oneWord
  | .negSmall => oneWord
  | .negLarge => zeroWord
  | .window => datapath c (decompose x) base2

end Sys2Proof.Machine
end

