-- ==== Sys2Proof/Machine/Ops.lean ====
section
/-! DEFINITION. The shared operations over the state: configuring a block, driving the ports, the passing of
one cycle and the delivery of responses. There is no exception entry and no return from one: the block
raises none (60_exceptions.md rules R180, R185, R186). -/

namespace Sys2Proof.Machine

/-- The constraints that the parameters break, in the order they are checked. -/
def Params.broken (p : Params) : List Constraint := Constraint.all.filter fun k => !k.holds p

/-- A configuration from parameters and a table, or the reason it is refused, decided before any request
(00_scope.md rule R13, 42_lut_poly_evaluator.md rules R129, R131, 60_exceptions.md rule R180). -/
def Configuration.build (p : Params) (m : Memory) : Except Refusal Configuration :=
  if sound : Params.sound p = true then
    if admitted : Memory.admitted p m = true then
      .ok { params := p, table := m, sound := sound, admitted := admitted }
    else .error .illFormedTable
  else .error (.illFormedParameters (Params.broken p))

/-- `y_raw` shows a value the spec leaves unspecified (10_state.md rule R31, 93_implementation_defined.md
U6). -/
def State.showUnspecified (s : State) : State :=
  { s with yRaw := Config.unspecifiedResponse s.freeCount, freeCount := s.freeCount + 1 }

/-- `out <- v`: the result port is driven with a response, which the host receives
(00_scope.md rule R17). -/
def State.deliver (y : Word) (s : State) : State :=
  { s with yRaw := y, responses := s.responses ++ [y] }

/-- The combinational block drives `y_raw` as the function of the current `x_raw` and `base2`
(70_reset_and_hazards.md rule R203). -/
def State.drive (s : State) : State := { s with yRaw := respond s.cfg s.base2 s.xRaw }

/-- One cycle, in which a request with the given response is accepted, or none is. In the combinational form
the response is driven at once, and while nothing new is requested `y_raw` is the function of the inputs they
have settled on. In the registered form each response comes `LATENCY` cycles after its request, in order
(70_reset_and_hazards.md rule R203); a cycle in which none is due leaves `y_raw` unspecified. -/
def State.cycle (entry : Option Word) (s : State) : State :=
  match s.pipe with
  | [] =>
    match entry with
    | some y => s.deliver y
    | none => if s.phase = .settled then s.drive else s.showUnspecified
  | due :: rest =>
    match due with
    | some y => ({ s with pipe := rest ++ [entry] }).deliver y
    | none => ({ s with pipe := rest ++ [entry] }).showUnspecified

/-- The host drives the input ports with a request, one position further in its sequence
(10_state.md rule R21). `y_raw` is a function of it once the table is loaded (70_reset_and_hazards.md rule
R202). -/
def State.present (base2 : Bool) (x : Word) (s : State) : State :=
  { s with base2 := base2, xRaw := x, phase := .ofStable s.tableLoaded, position := s.position + 1 }

/-- A request is served with the response the operation computed. Before the table holds its final contents
the response is unspecified: "a model gives it any value" (70_reset_and_hazards.md rule R202,
93_implementation_defined.md U5). -/
def State.serve (base2 : Bool) (x y : Word) (s : State) : State :=
  if s.tableLoaded then (s.present base2 x).cycle (some y)
  else
    ({ s.present base2 x with freeCount := s.freeCount + 1 }).cycle
      (some (Config.unspecifiedResponse s.freeCount))

/-- Inputs that were changing have been stable for the block's propagation delay, so `y_raw` is valid
(70_reset_and_hazards.md rule R203). -/
def State.settle (s : State) : State :=
  match s.phase with
  | .unspecified => s
  | .changing => { s with phase := .ofStable s.tableLoaded }
  | .settled => s

/-- A cycle in which the inputs stay as they are: one whole cycle is the propagation delay at the least,
assumption log 11. -/
def State.idleCycle (s : State) : State := s.settle.cycle none

/-- A cycle in which the inputs are changing, after which the ports hold `base2` and `x`: the combinational
`y_raw` "is unspecified while they change" (70_reset_and_hazards.md rule R203). The spec leaves the ports to
the host (30_encoding.md rule R60); that they take the values of the host's event is DESIGN CHOICE, assumption
log 11. -/
def State.changingCycle (base2 : Bool) (x : Word) (s : State) : State :=
  ({ s with base2 := base2, xRaw := x, phase := .changing }).cycle none

/-- A cycle in which the start-up load of the coefficient table completes (70_reset_and_hazards.md rule
R202). The inputs stay as they are, and settle in a later cycle at the earliest: assumption log 11. -/
def State.loadCycle (s : State) : State := ({ s with tableLoaded := true }).cycle none

end Sys2Proof.Machine
end

