-- ==== Sys2Proof/Machine/Exp.lean ====
section
/-! DEFINITION. The meanings of the two operations, EXP2 and EXPE. They "share the normalize/round pipeline
and differ only in the range reducer's constant" (44_dispatcher.md rule R174). -/

namespace Sys2Proof.Machine

/-- EXP2 (44_dispatcher.md rule R170): the response is selected with `base2 = 1`. -/
def execExp2 (x : Word) (s : State) : Host.Outcome State Fault Refusal :=
  .next (s.serve true x (respond s.cfg true x))

/-- EXPE (44_dispatcher.md rule R171): the response is selected with `base2 = 0`. -/
def execExpE (x : Word) (s : State) : Host.Outcome State Fault Refusal :=
  .next (s.serve false x (respond s.cfg false x))

end Sys2Proof.Machine
end

