-- ==== Sys2Proof/Machine/Dispatch.lean ====
section
/-! DEFINITION. One arm for each constructor of Instr. -/

namespace Sys2Proof.Machine

def exec (i : Instr) (s : State) : Host.Outcome State Fault Refusal :=
  match i with
  | .exp2 x => Sys2Proof.Machine.execExp2 x s
  | .expE x => Sys2Proof.Machine.execExpE x s

end Sys2Proof.Machine
end

