-- ==== Sys2Proof/Machine/Step.lean ====
section
/-! DEFINITION. One step: one cycle of the block, with the host's next port event. -/

namespace Sys2Proof.Machine

/-- One step takes the host's next port event (10_state.md rule R21). A request is decoded and executed as
one atomic step (rule R28); any other event, or none left, is a cycle without a request. -/
def step (s : State) : Host.Outcome State Fault Refusal :=
  match s.events with
  | [] => .next s.idleCycle
  | .request w :: rest => exec (decodeWord w) { s with events := rest }
  | .idle :: rest => .next ({ s with events := rest }).idleCycle
  | .changing w :: rest => .next (({ s with events := rest }).changingCycle w.mode w.operand)
  | .loadComplete :: rest => .next ({ s with events := rest }).loadCycle

/-- The request word `w` is the host's next port event, so the very next step runs it. A request word has
17 bits (30_encoding.md rule R61); bits above `nbits` count as 0. -/
def State.withFetchWord (s : State) (nbits w : Nat) : State :=
  { s with events := .request (BitVec.ofNat 17 (w % 2 ^ nbits)) :: s.events.tail }

end Sys2Proof.Machine
end

