-- ==== Sys2Proof/Machine/Values.lean ====
section
/-! DEFINITION. The numbers that BF16 words stand for (30_encoding.md rule R63, 40_float_codec.md rule R84),
used by claims and by the acceptance properties of a table. No operation reads them. -/

namespace Sys2Proof.Machine

open Sys2Proof.Target

/-- `|x|` of a decomposed finite word: `({hiddenBit, mantissaBits} / 2^7) * 2^unbiasedExponent`
(40_float_codec.md rule R84). -/
def magnitude (d : DecomposedFloat) : ℚ :=
  (significand d : ℚ) / 2 ^ mW * (2 : ℚ) ^ d.unbiasedExponent

/-- The value of a finite word (30_encoding.md rule R63). -/
def wordValue (w : Word) : ℚ :=
  if signField w then -magnitude (decompose w) else magnitude (decompose w)

/-- Neither a NaN nor an infinity (44_dispatcher.md rule R160). -/
def isFinite (w : Word) : Bool := !((classify w).isNaN || (classify w).isInf)

end Sys2Proof.Machine
end

