-- ==== Sys2Proof/Machine/Reference.lean ====
section
/-! DEFINITION. The double-precision reference `exp2(x)` and `exp(x)` of 42_lut_poly_evaluator.md rule R133,
as an exact computation on integers. It serves the acceptance check of a table; no operation reads it. The
spec names the reference and gives no rounding of it: that it is the double-precision number nearest to the
real value is DESIGN CHOICE, assumption log 10. -/

namespace Sys2Proof.Machine

open Sys2Proof.Target

/-- A double-precision number that is not negative, `mant * 2^exp`. -/
structure Double where
  mant : Nat
  exp  : Int
  deriving DecidableEq, Repr

/-- The number itself. -/
def Double.value (d : Double) : ℚ := d.mant * (2 : ℚ) ^ d.exp

/-- The unbiased exponent of the target-format binade that holds the number, at least `EMIN_N`: adjacent
target-format values are `2^-M_W` times that power of two apart. -/
def Double.binade (d : Double) : Int :=
  if d.mant = 0 then eMinN else max ((msb d.mant : Int) + d.exp) eMinN

namespace Reference

/-! Fixed-point numbers with `scale` fractional bits. -/

/-- Fractional bits: those of the smallest double-precision number, 1074, and 206 more. -/
abbrev scale : Nat := 1280

/-- The product of two fixed-point numbers. -/
def mulFx (a b : Nat) : Nat := shr (a * b) scale

/-- `sum` and the next terms of `1/3 + 1/(3*3^3) + 1/(5*3^5) + …`, from the power `p` of 1/3 with exponent
`k`. -/
def atanhThird : Nat → Nat → Nat → Nat → Nat
  | 0, _, _, sum => sum
  | n + 1, k, p, sum => atanhThird n (k + 2) (p / 9) (sum + p / k)

/-- `ln 2 = 2 * atanh(1/3)`. -/
def ln2 : Nat := 2 * atanhThird 405 1 (shl 1 scale / 3) 0

/-- `sum` and the next terms of the exponential series of `t`, from its term of degree `k`. -/
def series (t : Nat) : Nat → Nat → Nat → Nat → Nat
  | 0, _, _, sum => sum
  | n + 1, k, term, sum => series t n (k + 1) (mulFx term t / (k + 1)) (sum + term)

/-- `v` squared `n` times. -/
def squared : Nat → Nat → Nat
  | 0, v => v
  | n + 1, v => squared n (mulFx v v)

/-- `e^-t` for a fixed-point `t` below 2^11: the series at `t / 2^16`, squared 16 times, and the reciprocal. -/
def expNeg (t : Nat) : Nat :=
  shl 1 (2 * scale) / squared 16 (series (shr t 16) 32 0 (shl 1 scale) 0)

/-- The double-precision number nearest to a fixed-point number, an exact tie to the even one; the exponent of
its last place is at least -1074. -/
def nearestDouble (v : Nat) : Double :=
  let q := max ((msb v : Int) - (scale : Int) - 52) (-1074)
  let k := ((scale : Int) + q).toNat
  { mant := shr v k + (roundUp (guardBit v k) (stickyBit v k) (shr v k)).toNat, exp := q }

end Reference

/-- `|x|` of a finite word in fixed point. -/
def Reference.magnitudeFx (x : Word) : Nat :=
  shl (significand (decompose x)) (Reference.scale + (decompose x).unbiasedExponent - mW).toNat

/-- The double-precision reference of a negative argument `x`: `exp2(x)` for `base2 = 1`, `exp(x)` for
`base2 = 0`. From `|x| = 2^11` on both are below half the smallest double-precision number. -/
def doubleReference (base2 : Bool) (x : Word) : Double :=
  let t := Reference.magnitudeFx x
  if shl 1 (Reference.scale + 11) ≤ t then { mant := 0, exp := 0 }
  else Reference.nearestDouble (Reference.expNeg (if base2 then Reference.mulFx t Reference.ln2 else t))

end Sys2Proof.Machine
end

