-- ==== Sys2Proof/Machine/Acceptance.lean ====
section
/-! DEFINITION. The acceptance properties of a coefficient table (42_lut_poly_evaluator.md rule R133), each as
a statement and as a check "by exhaustive evaluation". They are what a hardware table is required to have, and
not rules of computation. -/

namespace Sys2Proof.Machine

open Sys2Proof.Target

/-- `y` differs from the reference value by at most `bound` units in the last place, where a ULP is "the gap
between adjacent representable values in the target format at a given magnitude" (00_scope.md rule R19). -/
abbrev ErrorWithin (bound : ℚ) (y : Word) (ref : Double) : Prop :=
  |wordValue y - ref.value| ≤ bound * (2 : ℚ) ^ (ref.binade - (mW : Int))

/-- Acceptance property (a), bounded error, over the negative window and in both modes. The bound
`ULP_BOUND` is open (92_eei_decisions.md D3), so it is an argument. -/
def BoundedError (c : Configuration) (ulpBound : ℚ) : Prop :=
  ∀ (base2 : Bool) (x : Word), InWindow c.params x →
    ErrorWithin ulpBound (respond c base2 x) (doubleReference base2 x)

/-- Acceptance property (b), monotonicity: "for negative x1 < x2 < 0 both inside the supported exponent
window, `approxExp(x1) <= approxExp(x2)`". -/
def Monotone (c : Configuration) : Prop :=
  ∀ (base2 : Bool) (x₁ x₂ : Word), InWindow c.params x₁ → InWindow c.params x₂ →
    wordValue x₁ < wordValue x₂ → wordValue (respond c base2 x₁) ≤ wordValue (respond c base2 x₂)

/-- The argument `0x8000 + k` is in the window, as a check that runs. -/
def windowWord (p : Params) (k : Nat) : Bool :=
  decide (selectRow p (decompose (BitVec.ofNat 16 (0x8000 + k))) = .window)

/-- Property (a) by exhaustive evaluation: every word of the window, in both modes. -/
def boundedErrorCheck (c : Configuration) (ulpBound : ℚ) : Bool :=
  (List.range 0x8000).all fun k =>
    !windowWord c.params k ||
      [false, true].all fun base2 =>
        decide (ErrorWithin ulpBound (respond c base2 (BitVec.ofNat 16 (0x8000 + k)))
          (doubleReference base2 (BitVec.ofNat 16 (0x8000 + k))))

/-- Property (b) "by exhaustive evaluation": of two neighbouring words of the window, the one of larger
magnitude has a response word that is not larger. -/
def monotoneCheck (c : Configuration) : Bool :=
  (List.range 0x7FFF).all fun k =>
    !(windowWord c.params k && windowWord c.params (k + 1)) ||
      [false, true].all fun base2 =>
        decide ((respond c base2 (BitVec.ofNat 16 (0x8000 + (k + 1)))).toNat ≤
          (respond c base2 (BitVec.ofNat 16 (0x8000 + k))).toNat)

/-- A configured table has both acceptance properties. -/
def Configuration.acceptable (c : Configuration) (ulpBound : ℚ) : Bool :=
  boundedErrorCheck c ulpBound && monotoneCheck c

end Sys2Proof.Machine
end

