-- ==== Sys2Proof/Safety.lean ====
section
/-! DEFINITION. The terms in which claims about the block are stated: its responses, the invariant of its
state, and correct rounding. The acceptance properties of a table stand in Machine/Acceptance.lean. -/

namespace Sys2Proof.Machine

open Sys2Proof.Target

/-! The fields of a BF16 word as plain arithmetic on its number, by the positions of 30_encoding.md rule R62.
Claims about operands are stated in them, so that they do not rest on the codec they speak of. -/

/-- The sign bit, `w[15]`. -/
abbrev rawSign (w : Word) : Nat := w.toNat / 32768

/-- The biased exponent field, `w[14:7]`. -/
abbrev rawExp (w : Word) : Nat := w.toNat / 128 % 256

/-- The mantissa field, `w[6:0]`. -/
abbrev rawMant (w : Word) : Nat := w.toNat % 128

/-- The unbiased exponent `E` of a finite word that is not zero (40_float_codec.md rule R82). -/
abbrev rawE (w : Word) : Int := if rawExp w = 0 then -126 else (rawExp w : Int) - 127

/-- Every response given so far, oldest first: those the host has received, then those in flight. -/
def State.outstanding (s : State) : List Word := s.responses ++ s.pipe.filterMap id

/-- Executing the instruction completes, with `y` as its one response: the latest of all responses given,
and on `y_raw` at once in the combinational form. -/
def Answers (i : Instr) (s : State) (y : Word) : Prop :=
  ∃ t, exec i s = .next t ∧ t.outstanding = s.outstanding ++ [y] ∧ (s.pipe = [] → t.yRaw = y)

/-- The four forms of a response (30_encoding.md rule R71): a NaN, +Infinity, +0.0, or a positive normal or
denormal word. -/
def IsResponse (y : Word) : Prop :=
  (classify y).isNaN = true ∨ y = infWord ∨ y = zeroWord ∨
    (signField y = false ∧ ((classify y).isNormal = true ∨ (classify y).isDenormal = true))

/-- What every step keeps: one place in flight for each cycle of `LATENCY`; one response for each request;
while the inputs are settled, the table is loaded, and in the combinational form `y_raw` is the response to
what is on the ports. -/
structure State.Inv (s : State) : Prop where
  latency : s.pipe.length = s.cfg.params.latency
  onePerRequest : s.outstanding.length = s.position
  combinational : s.phase = .settled → s.cfg.params.latency = 0 → s.yRaw = respond s.cfg s.base2 s.xRaw
  loaded : s.phase = .settled → s.tableLoaded = true

/-- Every response given so far is of a form of 30_encoding.md rule R71. -/
def State.ResponsesInForm (s : State) : Prop := ∀ y ∈ s.outstanding, IsResponse y

/-- `y` is `v` rounded to the nearest finite BF16 value, an exact tie going to the word whose
least-significant mantissa bit is zero (00_scope.md rule R19, "RNE"). -/
def IsNearestEven (y : Word) (v : ℚ) : Prop :=
  isFinite y = true ∧
    ∀ w : Word, isFinite w = true →
      |wordValue y - v| ≤ |wordValue w - v| ∧
        (|wordValue y - v| = |wordValue w - v| → wordValue w ≠ wordValue y → y.getLsbD 0 = false)

end Sys2Proof.Machine
end

