-- ==== Sys2Proof/Certificates/Slice0/Obligations.lean ====
section
/-! DEFINITION. The statements for the provers. -/

open Sys2Proof Sys2Proof.Machine Sys2Proof.Target

/-! Encoding. -/

/-- Encoding and decoding are inverse on every instruction and on every request word (30_encoding.md rules
R61, R64, R65). -/
def Obligations.EncodeAndDecodeAreInverse : Prop :=
  (∀ i : Instr, decodeWord (encode i) = i ∧ decode (encode i).toNat = .ok i ∧
      decodeTableWord 17 (encode i).toNat = some i) ∧
    ∀ w : ReqWord, encode (decodeWord w) = w

/-- 30_encoding.md rule R64: the mode bit `req[16]` selects the operation, and all of `req[15:0]` is the
operand. -/
def Obligations.ModeBitSelectsTheOperation : Prop :=
  ∀ w : ReqWord,
    (w.toNat / 2 ^ 16 = 1 → decodeWord w = .exp2 (BitVec.ofNat 16 (w.toNat % 2 ^ 16))) ∧
      (w.toNat / 2 ^ 16 = 0 → decodeWord w = .expE (BitVec.ofNat 16 (w.toNat % 2 ^ 16)))

/-- Words written out from the spec's encoding decode to the instructions they stand for, and those print in
the request notation (30_encoding.md rules R61, R70; 95_test_vectors.md section 10). -/
def Obligations.SampleRequestWordsDecode : Prop :=
  decodeTableWord 17 0x1BF80 = some (.exp2 0xBF80) ∧ decodeTableWord 17 0x0BF80 = some (.expE 0xBF80) ∧
    decodeTableWord 17 0x10001 = some (.exp2 0x0001) ∧ decodeTableWord 17 0x07F81 = some (.expE 0x7F81) ∧
    decodeTableWord 17 0x1FF7F = some (.exp2 0xFF7F) ∧ decodeTableWord 17 0x00000 = some (.expE 0x0000) ∧
    (Instr.exp2 0xBF80).asm = "EXP2 0xBF80" ∧ (Instr.expE 0xC2BA).asm = "EXPE 0xC2BA"

/-- A number of more than 17 bits is no request word and is rejected by name; every shorter one decodes
(30_encoding.md rules R61, R69). -/
def Obligations.OnlySeventeenBitWordsDecode : Prop :=
  ∀ n : Nat, (n < 2 ^ 17 → decode n = .ok (decodeWord (BitVec.ofNat 17 n))) ∧
    (2 ^ 17 ≤ n → decode n = .error .notARequestWord)

/-! The step. -/

/-- A step runs the decoded request: it takes the host's next port event and is `exec` of the instruction the
request word decodes to. That a placed word replaces the host's next port event and leaves those behind it is
the model's DESIGN CHOICE, assumption log 8. -/
def Obligations.StepRunsTheDecodedRequest : Prop :=
  (∀ (s : State) (w : ReqWord) (rest : List PortEvent), s.events = .request w :: rest →
      step s = exec (decodeWord w) { s with events := rest }) ∧
    ∀ (s : State) (nbits n : Nat) (i : Instr), decodeTableWord nbits n = some i →
      step (s.withFetchWord nbits n) = exec i { s with events := s.events.tail }

/-- A cycle without a request gives no response. Changing inputs put the host's word on the ports and unsettle
the block; a completed load leaves the table loaded; with no event left or an idle one the inputs are stable,
so that changed inputs settle once the table is loaded, and the settled combinational block drives its response
and changes nothing else (70_reset_and_hazards.md rules R202, R203). That each event takes one cycle, what the
ports hold after a changing one, and that one stable cycle settles the block, are the model's, assumption logs 5
and 11. -/
def Obligations.CyclesWithoutRequestGiveNoResponse : Prop :=
  ∀ s : State, (∀ w rest, s.events ≠ .request w :: rest) →
    ∃ t, step s = .next t ∧ t.outstanding = s.outstanding ∧ t.events = s.events.tail ∧ t.cfg = s.cfg ∧
      t.position = s.position ∧
      (∀ w rest, s.events = .changing w :: rest →
        t.base2 = w.mode ∧ t.xRaw = w.operand ∧ t.phase = .changing ∧ t.tableLoaded = s.tableLoaded) ∧
      (∀ rest, s.events = .loadComplete :: rest →
        t.base2 = s.base2 ∧ t.xRaw = s.xRaw ∧ t.phase = s.phase ∧ t.tableLoaded = true) ∧
      ((s.events = [] ∨ ∃ rest, s.events = .idle :: rest) →
        t.base2 = s.base2 ∧ t.xRaw = s.xRaw ∧ t.tableLoaded = s.tableLoaded ∧
        (s.phase ≠ .changing → t.phase = s.phase) ∧
        (s.phase = .changing → (s.tableLoaded = true → t.phase = .settled) ∧
          (s.tableLoaded = false → t.phase = .unspecified)) ∧
        (s.pipe = [] → t.phase = .settled →
          t = { s with events := s.events.tail, phase := .settled,
                       yRaw := respond s.cfg s.base2 s.xRaw }) ∧
        (s.pipe = [] → s.phase = .settled → s.yRaw = respond s.cfg s.base2 s.xRaw →
          t = { s with events := s.events.tail }))

/-- In the combinational form `y_raw` is the function of the inputs once they have been stable
(70_reset_and_hazards.md rule R203): after any changes of the inputs, the last of them to `w`, a cycle in which
they stay as they are puts the response to `w` on `y_raw`, and the host receives no response for it. That one
stable cycle settles the block is the model's, assumption log 11. -/
def Obligations.ChangedInputsSettleOnceStable : Prop :=
  ∀ (s : State) (ws : List ReqWord) (w : ReqWord) (rest : List PortEvent),
    s.tableLoaded = true → s.pipe = [] → s.events = ws.map .changing ++ .changing w :: .idle :: rest →
    ∃ t, Host.Core.run Sys2Proof.core (ws.length + 2) s = .next t ∧
      t.yRaw = respond s.cfg (decodeWord w).base2 (decodeWord w).operand ∧ t.phase = .settled ∧
      t.responses = s.responses ∧ t.position = s.position ∧ t.events = rest

/-- No step stops: there is no fault outcome. The one refusal is that of an ill-formed configuration, before
any request (60_exceptions.md rule R180). `Params.sound` holds two constraints of the model's own beside those
of 00_scope.md rule R13, DEDUCED, assumption log 6. -/
def Obligations.NoStepFaultsOrRefuses : Prop :=
  (∀ s : State, ∃ t, step s = .next t) ∧ (∀ (i : Instr) (s : State), ∃ t, exec i s = .next t) ∧
    ∀ (p : Params) (m : Memory), (∃ r, Configuration.build p m = .error r) ↔
      ¬ (Params.sound p = true ∧ Memory.admitted p m = true)

/-- Every request word is legal and produces exactly one response, whatever the state
(30_encoding.md rule R65, 44_dispatcher.md rule R172). -/
def Obligations.EveryRequestIsAnsweredOnce : Prop :=
  ∀ (w : ReqWord) (s : State), decode w.toNat = .ok (decodeWord w) ∧ ∃ y, Answers (decodeWord w) s y

/-! What each operation answers, by the rows of 44_dispatcher.md rule R160. -/

/-- EXP2 in the combinational form: the whole next state (44_dispatcher.md rule R170). -/
def Obligations.Exp2CompletesWithItsResponse : Prop :=
  ∀ (s : State) (x : Word), s.tableLoaded = true → s.pipe = [] →
    exec (.exp2 x) s = .next
      { s with base2 := true, xRaw := x, yRaw := respond s.cfg true x, phase := .settled,
               responses := s.responses ++ [respond s.cfg true x], position := s.position + 1 }

/-- EXPE in the combinational form: the whole next state (44_dispatcher.md rule R171). -/
def Obligations.ExpECompletesWithItsResponse : Prop :=
  ∀ (s : State) (x : Word), s.tableLoaded = true → s.pipe = [] →
    exec (.expE x) s = .next
      { s with base2 := false, xRaw := x, yRaw := respond s.cfg false x, phase := .settled,
               responses := s.responses ++ [respond s.cfg false x], position := s.position + 1 }

/-- Both operations in the registered form: the response enters the pipe behind those in flight, and the one
due is on `y_raw` (70_reset_and_hazards.md rule R203). -/
def Obligations.RegisteredRequestEntersThePipe : Prop :=
  ∀ (s : State) (x : Word) (due : Option Word) (rest : List (Option Word)),
    s.tableLoaded = true → s.pipe = due :: rest →
    (∃ t, exec (.exp2 x) s = .next t ∧ t.pipe = rest ++ [some (respond s.cfg true x)] ∧
      t.responses = s.responses ++ due.toList ∧ ∀ y, due = some y → t.yRaw = y) ∧
    ∃ t, exec (.expE x) s = .next t ∧ t.pipe = rest ++ [some (respond s.cfg false x)] ∧
      t.responses = s.responses ++ due.toList ∧ ∀ y, due = some y → t.yRaw = y

/-- 44_dispatcher.md rule R161: a NaN comes back with its quiet bit set; sign and payload propagate, and a
quiet NaN comes back unchanged. -/
def Obligations.NanComesBackQuieted : Prop :=
  ∀ (s : State) (x : Word), s.tableLoaded = true → rawExp x = 255 → rawMant x ≠ 0 →
    Answers (.exp2 x) s (x ||| 0x0040#16) ∧ Answers (.expE x) s (x ||| 0x0040#16) ∧
      rawExp (x ||| 0x0040#16) = 255 ∧ rawSign (x ||| 0x0040#16) = rawSign x ∧
      rawMant (x ||| 0x0040#16) / 64 = 1 ∧ rawMant (x ||| 0x0040#16) % 64 = rawMant x % 64 ∧
      (rawMant x / 64 = 1 → x ||| 0x0040#16 = x)

/-- 44_dispatcher.md rule R162: zero of either sign gives 1.0 in both modes. -/
def Obligations.ZeroGivesOne : Prop :=
  ∀ (s : State) (x : Word), s.tableLoaded = true → x = 0x0000#16 ∨ x = 0x8000#16 →
    Answers (.exp2 x) s 0x3F80#16 ∧ Answers (.expE x) s 0x3F80#16

/-- 44_dispatcher.md rules R163 and R164: +Infinity gives +Infinity, -Infinity gives +0. -/
def Obligations.InfinitiesGiveTheirLimits : Prop :=
  ∀ s : State, s.tableLoaded = true →
    (Answers (.exp2 0x7F80#16) s 0x7F80#16 ∧ Answers (.expE 0x7F80#16) s 0x7F80#16) ∧
      Answers (.exp2 0xFF80#16) s 0x0000#16 ∧ Answers (.expE 0xFF80#16) s 0x0000#16

/-- 44_dispatcher.md rule R165: positive finite arguments, by the thresholds of the configuration, and with
this hardware's thresholds -8 and 7. -/
def Obligations.PositiveFiniteArgumentsGiveConstants : Prop :=
  ∀ (s : State) (x : Word), s.tableLoaded = true → rawSign x = 0 → rawExp x ≠ 255 → x ≠ 0x0000#16 →
    (rawE x < s.cfg.params.posEOne → Answers (.exp2 x) s 0x3F80#16 ∧ Answers (.expE x) s 0x3F80#16) ∧
    (s.cfg.params.posEOne ≤ rawE x → s.cfg.params.posEInf ≤ rawE x →
      Answers (.exp2 x) s 0x7F80#16 ∧ Answers (.expE x) s 0x7F80#16) ∧
    (s.cfg.params.posEOne ≤ rawE x → rawE x < s.cfg.params.posEInf →
      Answers (.exp2 x) s 0x3F80#16 ∧ Answers (.expE x) s 0x3F80#16) ∧
    (s.cfg.params = Params.reference →
      (rawE x ≤ 6 → Answers (.exp2 x) s 0x3F80#16 ∧ Answers (.expE x) s 0x3F80#16) ∧
        (7 ≤ rawE x → Answers (.exp2 x) s 0x7F80#16 ∧ Answers (.expE x) s 0x7F80#16))

/-- 44_dispatcher.md rule R166: a negative denormal gives 1.0 in every admitted configuration, and a positive
one where `POS_E_ONE` is above the denormals' exponent, as this hardware's is. -/
def Obligations.DenormalsGiveOne : Prop :=
  ∀ (s : State) (x : Word), s.tableLoaded = true → rawExp x = 0 → rawMant x ≠ 0 →
    rawSign x = 1 ∨ -126 < s.cfg.params.posEOne →
    Answers (.exp2 x) s 0x3F80#16 ∧ Answers (.expE x) s 0x3F80#16

/-- 44_dispatcher.md rules R167 and R168: negative finite arguments outside the window, by the thresholds of
the configuration, and with this hardware's thresholds -9 and 7. -/
def Obligations.NegativeArgumentsOutsideTheWindow : Prop :=
  ∀ (s : State) (x : Word), s.tableLoaded = true → rawSign x = 1 → rawExp x ≠ 255 → x ≠ 0x8000#16 →
    (rawE x < s.cfg.params.negEMin → Answers (.exp2 x) s 0x3F80#16 ∧ Answers (.expE x) s 0x3F80#16) ∧
      (s.cfg.params.negEMax < rawE x → Answers (.exp2 x) s 0x0000#16 ∧ Answers (.expE x) s 0x0000#16) ∧
      (s.cfg.params = Params.reference →
        (rawE x ≤ -10 → Answers (.exp2 x) s 0x3F80#16 ∧ Answers (.expE x) s 0x3F80#16) ∧
          (8 ≤ rawE x → Answers (.exp2 x) s 0x0000#16 ∧ Answers (.expE x) s 0x0000#16))

/-- 44_dispatcher.md rule R169: only normal arguments reach the window row, and there both operations run
range reducer, evaluator, rounder and recomposition, each in its mode. -/
def Obligations.WindowArgumentsRunTheDatapath : Prop :=
  ∀ (s : State) (x : Word), s.tableLoaded = true → rawSign x = 1 → rawExp x ≠ 255 → x ≠ 0x8000#16 →
    s.cfg.params.negEMin ≤ rawE x → rawE x ≤ s.cfg.params.negEMax →
    rawExp x ≠ 0 ∧
      Answers (.exp2 x) s
        (floatReco (roundNormalize s.cfg.params
          (polyEval s.cfg.params s.cfg.table (rangeReduce s.cfg.params (decompose x) true).frac)
          (rangeReduce s.cfg.params (decompose x) true).bias)) ∧
      Answers (.expE x) s
        (floatReco (roundNormalize s.cfg.params
          (polyEval s.cfg.params s.cfg.table (rangeReduce s.cfg.params (decompose x) false).frac)
          (rangeReduce s.cfg.params (decompose x) false).bias))

/-- 30_encoding.md rule R71: every response is a NaN, +Infinity, +0 or a positive word, and its sign bit is 1
only for a NaN with a negative sign. -/
def Obligations.ResponsesAreOfTheStatedForms : Prop :=
  ∀ (c : Configuration) (b : Bool) (x : Word), IsResponse (respond c b x) ∧
    (rawSign (respond c b x) = 1 → rawExp (respond c b x) = 255 ∧ rawMant (respond c b x) ≠ 0 ∧
      rawSign x = 1 ∧ rawExp x = 255 ∧ rawMant x ≠ 0)

/-! The float codec. -/

/-- 40_float_codec.md rules R81 and R83 with the class table of 30_encoding.md rule R63: each flag holds
exactly on its class, at most one holds, and the hidden bit is set exactly where none does. -/
def Obligations.StatusFlagsClassifyEveryWord : Prop :=
  ∀ w : Word,
    let d := decompose w
    (d.status.isNaN = true ↔ rawExp w = 255 ∧ rawMant w ≠ 0) ∧
      (d.status.isInf = true ↔ rawExp w = 255 ∧ rawMant w = 0) ∧
      (d.status.isZero = true ↔ rawExp w = 0 ∧ rawMant w = 0) ∧
      (d.status.isDenormal = true ↔ rawExp w = 0 ∧ rawMant w ≠ 0) ∧
      (d.hiddenBit = true ↔ 1 ≤ rawExp w ∧ rawExp w ≤ 254) ∧
      d.status.isNaN.toNat + d.status.isInf.toNat + d.status.isZero.toNat + d.status.isDenormal.toNat +
        d.hiddenBit.toNat = 1

/-- 40_float_codec.md rule R82: the unbiased exponent of each class. -/
def Obligations.UnbiasedExponentByClass : Prop :=
  ∀ w : Word,
    (1 ≤ rawExp w → (decompose w).unbiasedExponent = (rawExp w : Int) - 127) ∧
      (1 ≤ rawExp w → rawExp w ≤ 254 →
        -126 ≤ (decompose w).unbiasedExponent ∧ (decompose w).unbiasedExponent ≤ 127) ∧
      (rawExp w = 0 → rawMant w ≠ 0 → (decompose w).unbiasedExponent = -126) ∧
      (rawExp w = 0 → rawMant w = 0 → (decompose w).unbiasedExponent = -127)

/-- 40_float_codec.md rule R87: recomposing the fields of a decomposed word gives the word back, for +0,
+Infinity and every positive normal or denormal. -/
def Obligations.RecomposeInvertsDecompose : Prop :=
  ∀ w : Word, rawSign w = 0 → ¬ (rawExp w = 255 ∧ rawMant w ≠ 0) →
    floatReco
      { cls :=
          if (decompose w).status.isZero then .zero
          else if (decompose w).status.isInf then .inf
          else if (decompose w).status.isDenormal then .subnormal
          else .normal,
        finalExp := (decompose w).unbiasedExponent,
        kept := significand (decompose w) } = w

/-! The range reducer. -/

/-- 41_range_reducer.md rule R104: the alignment and the split are exact; in base-2 mode they give `|x|`
itself. -/
def Obligations.RangeReductionIsExact : Prop :=
  ∀ (c : Configuration) (b : Bool) (x : Word), InWindow c.params x →
    let p := c.params
    let r := rangeReduce p (decompose x) b
    (aligned p (decompose x) b : ℚ) =
        magnitude (decompose x) * multiplier p b * 2 ^ (fracW p - p.fLog2e) ∧
      (r.bias : ℚ) + r.frac / 2 ^ fracW p =
        magnitude (decompose x) * multiplier p b / 2 ^ p.fLog2e ∧
      (b = true → (r.bias : ℚ) + r.frac / 2 ^ fracW p = |wordValue x|)

/-- 41_range_reducer.md rule R106: the bias and the fraction fit their widths in every configuration, a
base-2 fraction has its low `F_LOG2E` bits clear, and with the reference parameters the bias is at most 255 in
base-2 mode and 367 in natural mode, both reached at 0xC37F. -/
def Obligations.RangeReducerRanges : Prop :=
  (∀ (c : Configuration) (b : Bool) (x : Word), InWindow c.params x →
      let r := rangeReduce c.params (decompose x) b
      r.bias < 2 ^ intW c.params ∧ r.frac < 2 ^ fracW c.params ∧
        (b = true → r.frac % 2 ^ c.params.fLog2e = 0)) ∧
    (∀ x : Word, InWindow Params.reference x →
      (rangeReduce Params.reference (decompose x) true).bias ≤ 255 ∧
        (rangeReduce Params.reference (decompose x) false).bias ≤ 367) ∧
    (rangeReduce Params.reference (decompose 0xC37F#16) true).bias = 255 ∧
    (rangeReduce Params.reference (decompose 0xC37F#16) false).bias = 367

/-! The evaluator. -/

/-- 42_lut_poly_evaluator.md rules R121, R122 and R130, 20_memory.md rules R41 and R42: the mirrored index
is in range, the entry there is split into slope and intercept, and entry `j` is read exactly on its
segment. -/
def Obligations.EvaluatorReadsTheMirroredEntry : Prop :=
  ∀ (c : Configuration) (frac : Nat), frac < 2 ^ fracW c.params →
    let p := c.params
    let seg := 2 ^ (fracW p - p.lutAddrW)
    lutIndex p frac = frac / seg ∧ mirroredIndex p frac = 2 ^ p.lutAddrW - 1 - frac / seg ∧
      mirroredIndex p frac < 2 ^ p.lutAddrW ∧
      (∃ e, c.table[mirroredIndex p frac]? = some e ∧
        rom p c.table (mirroredIndex p frac) = some (e % 2 ^ p.wCoeff, e / 2 ^ p.wCoeff)) ∧
      ∀ j < 2 ^ p.lutAddrW, mirroredIndex p frac = j ↔
        (2 ^ p.lutAddrW - 1 - j) * seg ≤ frac ∧ frac < (2 ^ p.lutAddrW - j) * seg

/-- 42_lut_poly_evaluator.md rule R131: with an admitted table `res > 0` for every fraction, so the
evaluator never signals a zero. -/
def Obligations.AdmittedLinesStayPositive : Prop :=
  ∀ (c : Configuration) (frac : Nat), frac < 2 ^ fracW c.params →
    ∃ a b, rom c.params c.table (mirroredIndex c.params frac) = some (a, b) ∧
      a * frac < b * 2 ^ fracW c.params ∧
      lineValue c.params a b frac = (b : Int) * 2 ^ fracW c.params - a * frac ∧
      (polyEval c.params c.table frac).pzero = false

/-- 42_lut_poly_evaluator.md rule R128: the normalized mantissa lies in [1, 2), and with its relative
exponent it is exactly the line value. -/
def Obligations.NormalizationIsExact : Prop :=
  ∀ (c : Configuration) (frac : Nat), frac < 2 ^ fracW c.params →
    let p := c.params
    let r := polyEval p c.table frac
    ∃ a b, rom p c.table (mirroredIndex p frac) = some (a, b) ∧
      2 ^ polyF p ≤ r.mant ∧ r.mant < 2 ^ (polyF p + 1) ∧
      (r.mant : ℚ) / 2 ^ polyF p * (2 : ℚ) ^ r.polyExp = (lineValue p a b frac : ℚ) / 2 ^ accF p ∧
      -(accF p : Int) ≤ r.polyExp ∧ r.polyExp ≤ (p.iCoeff : Int) - 1

/-! The rounder. -/

/-- 43_rounder_normalizer.md rules R145 and R151: whatever the normalized mantissa and the exponent, a result
that does not overflow is the exact value rounded to nearest, ties to even, over the whole of BF16. -/
def Obligations.RnePackRoundsToNearestEven : Prop :=
  ∀ (p : Params) (mant : Nat) (e : Int), Params.sound p = true →
    2 ^ polyF p ≤ mant → mant < 2 ^ (polyF p + 1) → (rnePack p mant e).cls ≠ .inf →
    IsNearestEven (floatReco (rnePack p mant e)) ((mant : ℚ) / 2 ^ polyF p * (2 : ℚ) ^ e)

/-- 43_rounder_normalizer.md rules R146 to R148: the class of a result. Zero and subnormals come only from the
subnormal range; a subnormal-range value that reaches 2^M_W is promoted to the minimum normal; a normal-range
carry-out halves the mantissa; and overflow is an exponent above EMAX_N after the carry. -/
def Obligations.RnePackClassifiesItsResult : Prop :=
  ∀ (p : Params) (mant : Nat) (e : Int), Params.sound p = true →
    2 ^ polyF p ≤ mant → mant < 2 ^ (polyF p + 1) →
    let k := roundedKept p mant e
    let r := rnePack p mant e
    (e < -126 → k ≤ 128 ∧
      (k = 0 → r = { cls := .zero, finalExp := e, kept := 0 }) ∧
      (0 < k → k < 128 → r = { cls := .subnormal, finalExp := -126, kept := k }) ∧
      (k = 128 → r = { cls := .normal, finalExp := -126, kept := 128 } ∧ floatReco r = 0x0080#16)) ∧
    (-126 ≤ e → 128 ≤ k ∧ k ≤ 256 ∧
      (k < 256 → e ≤ 127 → r = { cls := .normal, finalExp := e, kept := k }) ∧
      (k = 256 → e + 1 ≤ 127 → r = { cls := .normal, finalExp := e + 1, kept := 128 }) ∧
      ((k < 256 ∧ 127 < e) ∨ (k = 256 ∧ 127 < e + 1) → r.cls = .inf ∧ floatReco r = 0x7F80#16))

/-! The datapath as a whole. -/

/-- 43_rounder_normalizer.md rule R151: the range reducer and the evaluator are exact, and the response is
the correctly rounded BF16 value of `2^-bias * res / 2^ACC_F`, the exact value of the selected line. -/
def Obligations.WindowResponseIsCorrectlyRounded : Prop :=
  ∀ (c : Configuration) (b : Bool) (x : Word), InWindow c.params x →
    let p := c.params
    let r := rangeReduce p (decompose x) b
    let v := polyEval p c.table r.frac
    ∃ slope intercept, rom p c.table (mirroredIndex p r.frac) = some (slope, intercept) ∧
      (r.bias : ℚ) + r.frac / 2 ^ fracW p =
        magnitude (decompose x) * multiplier p b / 2 ^ p.fLog2e ∧
      (v.mant : ℚ) / 2 ^ polyF p * (2 : ℚ) ^ v.polyExp =
        (lineValue p slope intercept r.frac : ℚ) / 2 ^ accF p ∧
      IsNearestEven (respond c b x)
        ((lineValue p slope intercept r.frac : ℚ) / 2 ^ accF p / 2 ^ r.bias)

/-- 43_rounder_normalizer.md rule R152: on the datapath `finalExp` is at most `I_COEFF`, infinity does not
occur and no response exceeds 1.0. -/
def Obligations.DatapathResultsAreAtMostOne : Prop :=
  ∀ (c : Configuration) (b : Bool) (x : Word), InWindow c.params x →
    let r := roundNormalize c.params
      (polyEval c.params c.table (rangeReduce c.params (decompose x) b).frac)
      (rangeReduce c.params (decompose x) b).bias
    r.cls ≠ .inf ∧ r.finalExp ≤ c.params.iCoeff ∧ (respond c b x).toNat ≤ 0x3F80

/-- Every working value of a datapath evaluation fits the width or range that 10_state.md rules R24 to R27 give
it, `kept` and `finalExp` before and after the carry. -/
def Obligations.WorkingValuesFitTheirWidths : Prop :=
  ∀ (c : Configuration) (b : Bool) (x : Word), InWindow c.params x →
    let p := c.params
    let d := decompose x
    let r := rangeReduce p d b
    let v := polyEval p c.table r.frac
    let q := roundNormalize p v r.bias
    (-127 ≤ d.unbiasedExponent ∧ d.unbiasedExponent ≤ 128) ∧ fitsU sigW (significand d) ∧ fitsU (p.fLog2e + 1) (multiplier p b) ∧
      fitsU (sigW + p.fLog2e + 1) (product p d b) ∧ fitsU (alignW p) (aligned p d b) ∧
      fitsU (intW p) r.bias ∧ fitsU (fracW p) r.frac ∧
      fitsU p.lutAddrW (lutIndex p r.frac) ∧ fitsU p.lutAddrW (mirroredIndex p r.frac) ∧
      (∃ slope intercept, rom p c.table (mirroredIndex p r.frac) = some (slope, intercept) ∧
        fitsU p.wCoeff slope ∧ fitsU p.wCoeff intercept ∧ fitsU (axW p) (slope * r.frac) ∧
        fitsU (p.wCoeff + fracW p) (shl intercept (fracW p)) ∧
        fitsS (accW p) (lineValue p slope intercept r.frac) ∧
        msb (lineValue p slope intercept r.frac).toNat ≤ p.wCoeff + fracW p - 1) ∧
      fitsU (polyOutW p) v.mant ∧ fitsS (pexpW p) v.polyExp ∧ fitsS (fexpW p) (v.polyExp - r.bias) ∧
      polyF p - mW ≤ roundShift p (v.polyExp - r.bias) ∧
      fitsU (mW + 2) (roundedKept p v.mant (v.polyExp - r.bias)) ∧
      fitsS (fexpW p) q.finalExp ∧ fitsU (mW + 2) q.kept

/-- 44_dispatcher.md rule R171: with the reference parameters, EXPE of every window argument with
`|x| >= 93` (0xC2BA) is +0, whatever the admitted table. -/
def Obligations.NaturalModeUnderflowsFromMinus93 : Prop :=
  ∀ (s : State) (x : Word), s.tableLoaded = true → s.cfg.params = Params.reference →
    0xC2BA ≤ x.toNat → x.toNat ≤ 0xC37F → Answers (.expE x) s 0x0000#16

/-- 95_test_vectors.md scenario S5: with the reference parameters, EXP2 of -1.0 is exactly 0.5 if and only if
the last entry's intercept is at least 0xFF80. -/
def Obligations.MinusOneGivesHalfForARoundedIntercept : Prop :=
  ∀ (s : State) (e : Nat), s.tableLoaded = true → s.cfg.params = Params.reference →
    s.cfg.table[63]? = some e → (Answers (.exp2 0xBF80#16) s 0x3F00#16 ↔ 0xFF80 ≤ e / 2 ^ 16)

/-- 44_dispatcher.md rule R173: the rows other than the datapath answer the same in both modes. -/
def Obligations.SpecialRowsServeBothModes : Prop :=
  ∀ (c : Configuration) (x : Word), ¬ InWindow c.params x → respond c true x = respond c false x

/-! Configuration. -/

/-- 00_scope.md rule R13 and 42_lut_poly_evaluator.md rule R131: a configuration is admitted exactly when its
parameters meet the constraints and its table is well formed, each spelled out in plain arithmetic. The
constraints on `LOG2E_FX` and on `NEG_E_MIN > -126` are the model's own, assumption log 6. -/
def Obligations.OnlyWellFormedConfigurationsAreBuilt : Prop :=
  ∀ (p : Params) (m : Memory),
    (∃ c, Configuration.build p m = .ok c ∧ c.params = p ∧ c.table = m) ↔
      (1 ≤ p.lutAddrW ∧ (p.lutAddrW : Int) ≤ 7 + p.fLog2e - p.negEMin ∧ 1 ≤ p.wCoeff ∧
        p.iCoeff ≤ p.wCoeff ∧ 1 ≤ p.fLog2e ∧ p.negEMin < 0 ∧ 0 ≤ p.negEMax ∧
        p.log2eFx < 2 ^ (p.fLog2e + 1) ∧ -126 < p.negEMin) ∧
      m.length = 2 ^ p.lutAddrW ∧
      ∀ j e, m[j]? = some e → e < 2 ^ (2 * p.wCoeff) ∧
        (e % 2 ^ p.wCoeff) * ((2 ^ p.lutAddrW - j) * 2 ^ (fracW p - p.lutAddrW) - 1) <
          e / 2 ^ p.wCoeff * 2 ^ fracW p ∧
        e % 2 ^ p.wCoeff < 2 ^ (p.wCoeff - p.iCoeff) ∧ e / 2 ^ p.wCoeff < 2 ^ (p.wCoeff - p.iCoeff)

/-- 00_scope.md rule R12: the derived widths of the reference parameters. -/
def Obligations.ReferenceWidths : Prop :=
  let p := Params.reference
  lutSize p = 64 ∧ sigW = 8 ∧ prodF p = 23 ∧ fracW p = 32 ∧ intW p = 9 ∧ alignW p = 41 ∧ axW p = 48 ∧
    accF p = 48 ∧ accW p = 50 ∧ polyOutW p = 50 ∧ polyF p = 49 ∧ pexpW p = 7 ∧ fexpW p = 11

/-- 42_lut_poly_evaluator.md rule R133: the exhaustive check decides the monotonicity a table is required to
have. -/
def Obligations.ExhaustiveCheckDecidesMonotonicity : Prop :=
  ∀ c : Configuration, monotoneCheck c = true ↔ Monotone c

/-- 42_lut_poly_evaluator.md rule R133: the exhaustive check decides the bounded error a table is required to
have. The double-precision reference is the model's, assumption log 10. -/
def Obligations.ExhaustiveCheckDecidesBoundedError : Prop :=
  ∀ (c : Configuration) (ulpBound : ℚ), boundedErrorCheck c ulpBound = true ↔ BoundedError c ulpBound

/-- 42_lut_poly_evaluator.md rule R133: the acceptance check of a configured table decides both required
properties. The double-precision reference is the model's, assumption log 10. -/
def Obligations.AcceptanceIsDecidedByEvaluation : Prop :=
  ∀ (c : Configuration) (ulpBound : ℚ),
    c.acceptable ulpBound = true ↔ BoundedError c ulpBound ∧ Monotone c

/-! The machine over time. -/

/-- 10_state.md rule R31, 70_reset_and_hazards.md rules R200 and R201: after reset the parameters are the
reference ones, an admitted table is present, and nothing has been requested, answered or is in flight. -/
def Obligations.ResetState : Prop :=
  State.reset.cfg.params = Params.reference ∧ State.reset.tableLoaded = true ∧
    Memory.wf Params.reference State.reset.cfg.table = true ∧
    Memory.admitted Params.reference State.reset.cfg.table = true ∧ State.reset.phase = .unspecified ∧
    State.reset.pipe = [] ∧ State.reset.outstanding = [] ∧ State.reset.position = 0 ∧
    State.reset.events = []

/-- The invariant holds at power-up of every configuration, so at reset. -/
def Obligations.InvariantHoldsAtPowerUp : Prop :=
  (∀ c : Configuration, (State.powerUp c).Inv ∧ (State.powerUp c).ResponsesInForm) ∧ State.reset.Inv

/-- Every step keeps the invariant: the latency, one response for each request, and a settled `y_raw` that is
the response to the request on the ports (70_reset_and_hazards.md rules R200, R203). -/
def Obligations.EveryStepKeepsTheInvariant : Prop :=
  ∀ s t : State, s.Inv → step s = .next t → t.Inv

/-- Once the table is loaded, every step keeps every response in the forms of 30_encoding.md rule R71. -/
def Obligations.EveryStepKeepsResponsesInForm : Prop :=
  ∀ s t : State, s.tableLoaded = true → s.ResponsesInForm → step s = .next t →
    t.tableLoaded = true ∧ t.ResponsesInForm

/-- 70_reset_and_hazards.md rule R205: no step changes the parameters or the table, so every ROM read gives
what it gave before, and a loaded table stays loaded. -/
def Obligations.NoStepChangesTheConfiguration : Prop :=
  ∀ s t : State, step s = .next t →
    t.cfg = s.cfg ∧ (∀ j, rom t.cfg.params t.cfg.table j = rom s.cfg.params s.cfg.table j) ∧
      Memory.wf t.cfg.params t.cfg.table = true ∧ (s.tableLoaded = true → t.tableLoaded = true)

/-- The frame of EXP2 and EXPE: besides the ports, the responses given and in flight, the position and the
model's own counter of free values, nothing changes; every ROM entry reads as before. -/
def Obligations.RequestsChangeOnlyPortsAndResponses : Prop :=
  ∀ (s t : State) (x : Word),
    (exec (.exp2 x) s = .next t → t.base2 = true) ∧ (exec (.expE x) s = .next t → t.base2 = false) ∧
      (exec (.exp2 x) s = .next t ∨ exec (.expE x) s = .next t →
        t.cfg = s.cfg ∧ t.tableLoaded = s.tableLoaded ∧ t.events = s.events ∧ t.xRaw = x ∧
          t.phase = .ofStable s.tableLoaded ∧ t.position = s.position + 1 ∧ t.pipe.length = s.pipe.length ∧
          (s.tableLoaded = true → s.pipe = [] → t.freeCount = s.freeCount) ∧
          ∀ j, rom t.cfg.params t.cfg.table j = rom s.cfg.params s.cfg.table j)

/-- 70_reset_and_hazards.md rule R203: a step in which a request is accepted adds exactly one response behind
all earlier ones, and any other step adds none. -/
def Obligations.OneResponsePerRequestInOrder : Prop :=
  ∀ s t : State, s.tableLoaded = true → step s = .next t →
    (∀ w rest, s.events = .request w :: rest →
      t.outstanding = s.outstanding ++ [respond s.cfg (decodeWord w).base2 (decodeWord w).operand] ∧
        t.position = s.position + 1) ∧
      ((∀ w rest, s.events ≠ .request w :: rest) →
        t.outstanding = s.outstanding ∧ t.position = s.position) ∧
      s.responses <+: t.responses

/-- 70_reset_and_hazards.md rule R203: the response to a request is on `y_raw` `LATENCY` cycles after the
request, whatever the host does in between. That one step is one cycle, and that `LATENCY` is counted from the
step that accepts the request, is DEDUCED, assumption log 5. -/
def Obligations.ResponseComesLatencyCyclesLater : Prop :=
  ∀ (s : State) (w : ReqWord) (rest : List PortEvent), s.tableLoaded = true →
    s.pipe.length = s.cfg.params.latency → s.events = .request w :: rest →
    ∃ t, Host.Core.run Sys2Proof.core (s.cfg.params.latency + 1) s = .next t ∧
      t.yRaw = respond s.cfg (decodeWord w).base2 (decodeWord w).operand

/-- 70_reset_and_hazards.md rules R203 and R204: a stream of requests, one a cycle, is answered in order, each
by its own response alone, after what was in flight; `LATENCY` more cycles drain it, one cycle being one step
(DEDUCED, assumption log 5). -/
def Obligations.RequestStreamIsAnsweredInOrder : Prop :=
  ∀ (s : State) (ws : List ReqWord), s.tableLoaded = true → s.pipe.length = s.cfg.params.latency →
    ∃ t, Host.Core.run Sys2Proof.core (ws.length + s.cfg.params.latency)
        { s with events := ws.map .request } = .next t ∧
      t.responses = s.responses ++ s.pipe.filterMap id ++
        ws.map (fun w => respond s.cfg (decodeWord w).base2 (decodeWord w).operand) ∧
      t.position = s.position + ws.length

/-- 10_state.md rule R28, 70_reset_and_hazards.md rule R204: the response to a request depends only on the
request and the configuration. Two machines that differ in everything else give the same response. -/
def Obligations.ResponseDependsOnlyOnRequestAndTable : Prop :=
  ∀ (i : Instr) (s t : State), s.cfg = t.cfg → s.tableLoaded = true → t.tableLoaded = true →
    ∃ y, Answers i s y ∧ Answers i t y ∧ ∀ z, (Answers i s z → z = y) ∧ (Answers i t z → z = y)
end

