-- ==== Sys2Proof/Laws/Codec.lean ====
section
/-! SUPPORT. Laws of the float codec: the fields of a word as numbers, and the words that recomposition
gives. -/

namespace Sys2Proof.Machine

open Sys2Proof.Target

/-! The fields of a word. -/

theorem expField_toNat (w : Word) : (expField w).toNat = w.toNat / 128 % 256 := by
  simp [expField, Nat.shiftRight_eq_div_pow]

theorem mantField_toNat (w : Word) : (mantField w).toNat = w.toNat % 128 := by
  simp [mantField]

theorem signField_iff (w : Word) : signField w = true ↔ 32768 ≤ w.toNat := by
  have := w.isLt
  simp only [signField, ← BitVec.testBit_toNat, Nat.testBit_eq_decide_div_mod_eq, decide_eq_true_eq]
  omega

theorem signField_eq_false_iff (w : Word) : signField w = false ↔ w.toNat < 32768 := by
  rw [← Bool.not_eq_true, signField_iff]
  omega

/-! The classes, in terms of the fields (30_encoding.md rule R63). -/

theorem expField_eq_iff (w : Word) (k : Nat) (hk : k < 256) :
    expField w = BitVec.ofNat 8 k ↔ w.toNat / 128 % 256 = k := by
  rw [← BitVec.toNat_inj, expField_toNat, BitVec.toNat_ofNat, Nat.mod_eq_of_lt hk]

theorem mantField_eq_zero_iff (w : Word) : mantField w = 0#7 ↔ w.toNat % 128 = 0 := by
  rw [← BitVec.toNat_inj, mantField_toNat]
  rfl

theorem isNaN_iff (w : Word) :
    (classify w).isNaN = true ↔ w.toNat / 128 % 256 = 255 ∧ w.toNat % 128 ≠ 0 := by
  simp [classify, expField_eq_iff w 255, mantField_eq_zero_iff]

theorem isInf_iff (w : Word) :
    (classify w).isInf = true ↔ w.toNat / 128 % 256 = 255 ∧ w.toNat % 128 = 0 := by
  simp [classify, expField_eq_iff w 255, mantField_eq_zero_iff]

theorem isZero_iff (w : Word) :
    (classify w).isZero = true ↔ w.toNat / 128 % 256 = 0 ∧ w.toNat % 128 = 0 := by
  simp [classify, expField_eq_iff w 0, mantField_eq_zero_iff]

theorem isDenormal_iff (w : Word) :
    (classify w).isDenormal = true ↔ w.toNat / 128 % 256 = 0 ∧ w.toNat % 128 ≠ 0 := by
  simp [classify, expField_eq_iff w 0, mantField_eq_zero_iff]

theorem isNormal_iff (w : Word) :
    (classify w).isNormal = true ↔ w.toNat / 128 % 256 ≠ 0 ∧ w.toNat / 128 % 256 ≠ 255 := by
  have h : (classify w).isNormal = true ↔ ¬ (classify w).isNaN = true ∧ ¬ (classify w).isInf = true ∧
      ¬ (classify w).isZero = true ∧ ¬ (classify w).isDenormal = true := by
    simp [Status.isNormal, and_assoc]
  rw [h, isNaN_iff, isInf_iff, isZero_iff, isDenormal_iff]
  omega

/-! Decomposition. -/

@[simp] theorem decompose_sign (w : Word) : (decompose w).sign = signField w := rfl
@[simp] theorem decompose_mantissaBits (w : Word) : (decompose w).mantissaBits = mantField w := rfl
@[simp] theorem decompose_hiddenBit (w : Word) : (decompose w).hiddenBit = (classify w).isNormal := rfl
@[simp] theorem decompose_status (w : Word) : (decompose w).status = classify w := rfl

theorem decompose_exponent (w : Word) :
    (decompose w).unbiasedExponent =
      if w.toNat / 128 % 256 = 0 ∧ w.toNat % 128 ≠ 0 then (-126 : Int) else ((w.toNat / 128 % 256 : Nat) : Int) - 127 := by
  simp only [decompose, isDenormal_iff, expField_toNat, biasT]
  rfl

/-- The significand has its hidden bit for a normal word. -/
theorem significand_normal (w : Word) (h : (classify w).isNormal = true) :
    significand (decompose w) = 128 + w.toNat % 128 := by
  simp [significand, h, mantField_toNat, mW]

theorem significand_lt (w : Word) : significand (decompose w) < 256 := by
  have := (mantField w).isLt
  cases h : (classify w).isNormal <;> simp [significand, h, mW] <;> omega

/-! Recomposition. -/

theorem floatReco_zero (r : Rounded) (h : r.cls = .zero) : floatReco r = 0x0000#16 := by
  simp [floatReco, h, zeroWord]

theorem floatReco_inf (r : Rounded) (h : r.cls = .inf) : floatReco r = 0x7F80#16 := by
  simp [floatReco, h, infWord]

theorem floatReco_subnormal (r : Rounded) (h : r.cls = .subnormal) (hk : r.kept < 128) :
    (floatReco r).toNat = r.kept := by
  simp only [floatReco, h, BitVec.toNat_append, BitVec.toNat_ofNat]
  simp [hk]

theorem floatReco_normal (r : Rounded) (h : r.cls = .normal) (he : -126 ≤ r.finalExp ∧ r.finalExp ≤ 127)
    (hk : 128 ≤ r.kept ∧ r.kept < 256) :
    (floatReco r).toNat = (r.finalExp + 127).toNat * 128 + (r.kept - 128) := by
  simp only [floatReco, h, BitVec.toNat_append, BitVec.toNat_ofNat, BitVec.toNat_ofInt, biasT]
  have h1 : ((r.finalExp + 127) % ((2 ^ 8 : Nat) : Int)).toNat = (r.finalExp + 127).toNat := by omega
  have h2 : r.kept % 2 ^ 7 = r.kept - 128 := by omega
  rw [h1, h2, Nat.shiftLeft_eq, Nat.shiftLeft_eq, ← Nat.shiftLeft_eq _ 7,
    ← Nat.shiftLeft_add_eq_or_of_lt (by omega), Nat.shiftLeft_eq]
  have : (0 * 2 ^ 8 ||| (r.finalExp + 127).toNat) = (r.finalExp + 127).toNat := by simp
  rw [this]

end Sys2Proof.Machine
end

