-- ==== Sys2Proof/Laws/Geometry.lean ====
section
/-! SUPPORT. Laws of the number primitives, of the derived widths, and of the coefficient ROM. -/

namespace Sys2Proof.Machine

open Sys2Proof.Target

/-! Number primitives. -/

theorem bits_low (v w : Nat) (h : 0 < w) : bits v (w - 1) 0 = v % 2 ^ w := by
  have : w - 1 + 1 - 0 = w := by omega
  simp [bits, this]

theorem bits_lt (v hi lo : Nat) : bits v hi lo < 2 ^ (hi + 1 - lo) := Nat.mod_lt _ (by positivity)

/-- A field that reaches the top of its register is a plain shift. -/
theorem bits_top (v w lo : Nat) (hv : v < 2 ^ w) (hlo : lo ≤ w) (hw : 0 < w) :
    bits v (w - 1) lo = v / 2 ^ lo := by
  have hsub : w - 1 + 1 - lo = w - lo := by omega
  rw [bits, hsub]
  apply Nat.mod_eq_of_lt
  rw [Nat.div_lt_iff_lt_mul (by positivity), ← pow_add, Nat.sub_add_cancel hlo]
  exact hv

/-- The priority encoder brackets its argument. -/
theorem msb_bounds (v : Nat) (h : 0 < v) : 2 ^ msb v ≤ v ∧ v < 2 ^ (msb v + 1) :=
  ⟨Nat.log2_self_le (by omega), Nat.lt_log2_self⟩

theorem msb_lt (v w : Nat) (h : 0 < v) (hw : v < 2 ^ w) : msb v < w :=
  (Nat.pow_lt_pow_iff_right (by norm_num)).mp ((msb_bounds v h).1.trans_lt hw)

/-! The reference parameters, field by field. -/

@[simp] theorem reference_lutAddrW : Params.reference.lutAddrW = 6 := rfl
@[simp] theorem reference_wCoeff : Params.reference.wCoeff = 16 := rfl
@[simp] theorem reference_iCoeff : Params.reference.iCoeff = 0 := rfl
@[simp] theorem reference_fLog2e : Params.reference.fLog2e = 16 := rfl
@[simp] theorem reference_log2eFx : Params.reference.log2eFx = 94548 := rfl
@[simp] theorem reference_negEMin : Params.reference.negEMin = -9 := rfl
@[simp] theorem reference_negEMax : Params.reference.negEMax = 7 := rfl
@[simp] theorem reference_posEOne : Params.reference.posEOne = -8 := rfl
@[simp] theorem reference_posEInf : Params.reference.posEInf = 7 := rfl
@[simp] theorem reference_latency : Params.reference.latency = 0 := rfl
@[simp] theorem reference_fracW : fracW Params.reference = 32 := rfl
@[simp] theorem reference_accF : accF Params.reference = 48 := rfl
@[simp] theorem reference_polyF : polyF Params.reference = 49 := rfl

/-! Derived widths under the constraints. -/

/-- What the constraints of a configuration say, as plain inequalities. -/
theorem sound_iff (p : Params) : Params.sound p = true ↔
    1 ≤ p.lutAddrW ∧ p.lutAddrW ≤ fracW p ∧ 1 ≤ p.wCoeff ∧ p.iCoeff ≤ p.wCoeff ∧ 1 ≤ p.fLog2e ∧
      (p.negEMin < 0 ∧ 0 ≤ p.negEMax) ∧ p.negEMax + 2 ≤ (intW p : Int) ∧ 1 ≤ polyF p - mW ∧
      p.log2eFx < 2 ^ (p.fLog2e + 1) ∧ eMinN < p.negEMin := by
  simp [Params.sound, Constraint.all, Constraint.holds]

theorem fracW_cast (p : Params) (h : Params.sound p = true) :
    (fracW p : Int) = 7 + p.fLog2e - p.negEMin := by
  have := (sound_iff p).mp h
  simp only [fracW, prodF, mW]
  omega

theorem intW_cast (p : Params) (h : Params.sound p = true) : (intW p : Int) = 2 + p.negEMax := by
  have := (sound_iff p).mp h
  simp only [intW]
  omega

theorem fracW_pos (p : Params) (h : Params.sound p = true) : 0 < fracW p := by
  have := (sound_iff p).mp h
  omega

theorem accW_eq (p : Params) : accW p = p.wCoeff + fracW p + 2 := by
  simp [accW, axW]

theorem polyF_eq (p : Params) : polyF p = p.wCoeff + fracW p + 1 := by
  simp [polyF, polyOutW, accW_eq]

/-! The coefficient ROM. -/

theorem admittedFrom_iff (p : Params) (m : Memory) (i : Nat) :
    admittedFrom p i m = true ↔ ∀ j e, m[j]? = some e → EntryAdmitted p (i + j) e := by
  induction m generalizing i with
  | nil => simp [admittedFrom]
  | cons a rest ih =>
    simp only [admittedFrom, Bool.and_eq_true, decide_eq_true_eq, ih]
    constructor
    · rintro ⟨h0, h1⟩ j e hj
      cases j with
      | zero => simp at hj; simpa [hj] using h0
      | succ j =>
        have := h1 j e (by simpa using hj)
        rwa [Nat.add_assoc, Nat.add_comm 1 j] at this
    · intro h
      refine ⟨by simpa using h 0 a rfl, fun j e hj => ?_⟩
      have := h (j + 1) e (by simpa using hj)
      rwa [Nat.add_comm j 1, ← Nat.add_assoc] at this

/-- Every index of the address map holds an entry, of the right width and admitted. -/
theorem entry_of_admitted (p : Params) (m : Memory) (h : Memory.admitted p m = true) (j : Nat)
    (hj : j < lutSize p) : ∃ e, m[j]? = some e ∧ e < 2 ^ (2 * p.wCoeff) ∧ EntryAdmitted p j e := by
  simp only [Memory.admitted, Memory.wf, Bool.and_eq_true, decide_eq_true_eq, List.all_eq_true] at h
  obtain ⟨⟨hlen, hwid⟩, hadm⟩ := h
  have hlt : j < m.length := by omega
  refine ⟨m[j], List.getElem?_eq_getElem hlt, hwid _ (List.getElem_mem hlt), ?_⟩
  have := (admittedFrom_iff p m 0).mp hadm j m[j] (List.getElem?_eq_getElem hlt)
  rwa [Nat.zero_add] at this

theorem memory_wf_of_admitted (p : Params) (m : Memory) (h : Memory.admitted p m = true) :
    Memory.wf p m = true := by
  simp only [Memory.admitted, Bool.and_eq_true] at h
  exact h.1

/-- The memory of every configuration, so of every state, is in canonical form. -/
theorem configuration_memory_wf (c : Configuration) : Memory.wf c.params c.table = true :=
  memory_wf_of_admitted _ _ c.admitted

/-- So the memory of any state, the reset state and every step's result among them, is in canonical form: no
operation writes it. -/
theorem state_memory_wf (s : State) : Memory.wf s.cfg.params s.cfg.table = true :=
  configuration_memory_wf s.cfg

end Sys2Proof.Machine
end

