-- ==== Sys2Proof/Laws/Datapath.lean ====
section
/-! SUPPORT. One specification lemma for each stage of the datapath. -/

namespace Sys2Proof.Machine

open Sys2Proof.Target

/-! The dispatcher. -/

/-- A word that reaches the datapath is a normal word of the window. -/
theorem selectRow_window_iff (p : Params) (h : Params.sound p = true) (x : Word) :
    selectRow p (decompose x) = .window ↔ InWindow p x := by
  have hp := (sound_iff p).mp h
  simp only [InWindow, decompose_sign, decompose_hiddenBit, isNormal_iff]
  have hE := decompose_exponent x
  have hN := isNaN_iff x
  have hI := isInf_iff x
  have hZ := isZero_iff x
  constructor
  · intro hr
    have h1 : ¬ (classify x).isNaN = true := fun k => by simp [selectRow, k] at hr
    have h2 : ¬ (classify x).isZero = true := fun k => by simp [selectRow, h1, k] at hr
    have hs : signField x = true := by
      by_contra k
      rw [Bool.not_eq_true] at k
      by_cases k1 : (classify x).isInf = true
      · simp [selectRow, h1, h2, k, k1] at hr
      · by_cases k2 : (decompose x).unbiasedExponent < p.posEOne
        · simp [selectRow, h1, h2, k, k1, k2] at hr
        · by_cases k3 : p.posEInf ≤ (decompose x).unbiasedExponent <;>
            simp [selectRow, h1, h2, k, k1, k2, k3] at hr
    have h3 : ¬ (classify x).isInf = true := fun k => by simp [selectRow, h1, h2, hs, k] at hr
    have h4 : ¬ (decompose x).unbiasedExponent < p.negEMin := fun k => by
      simp [selectRow, h1, h2, hs, h3, k] at hr
    have h5 : ¬ (decompose x).unbiasedExponent > p.negEMax := fun k => by
      simp [selectRow, h1, h2, hs, h3, h4, k] at hr
    rw [hN] at h1
    rw [hZ] at h2
    rw [hI] at h3
    simp only [eMinN] at hp
    refine ⟨hs, ?_, by omega, by omega⟩
    split at hE <;> omega
  · rintro ⟨hs, ⟨he0, he1⟩, hlo, hhi⟩
    have h1 : ¬ (classify x).isNaN = true := by rw [hN]; omega
    have h2 : ¬ (classify x).isZero = true := by rw [hZ]; omega
    have h3 : ¬ (classify x).isInf = true := by rw [hI]; omega
    have h4 : ¬ (decompose x).unbiasedExponent < p.negEMin := by omega
    have h5 : ¬ (decompose x).unbiasedExponent > p.negEMax := by omega
    simp [selectRow, h1, h2, h3, hs, h4, h5]

/-- The response on the datapath row. -/
theorem respond_window (c : Configuration) (b : Bool) (x : Word) (h : InWindow c.params x) :
    respond c b x = datapath c (decompose x) b := by
  simp [respond, (selectRow_window_iff c.params c.sound x).mpr h]

/-! The range reducer. -/

theorem multiplier_lt (p : Params) (h : Params.sound p = true) (b : Bool) :
    multiplier p b < 2 ^ (p.fLog2e + 1) := by
  have hp := (sound_iff p).mp h
  cases b with
  | true => simp only [multiplier, shl, if_true, one_mul]; exact Nat.pow_lt_pow_right (by norm_num) (by omega)
  | false => simpa [multiplier] using hp.2.2.2.2.2.2.2.2.1

theorem product_lt (p : Params) (h : Params.sound p = true) (x : Word) (b : Bool) :
    product p (decompose x) b < 2 ^ (sigW + p.fLog2e + 1) := by
  have h1 := significand_lt x
  have h2 := multiplier_lt p h b
  have h3 : (2 : Nat) ^ (sigW + p.fLog2e + 1) = 256 * 2 ^ (p.fLog2e + 1) := by
    simp only [sigW, mW]; rw [show 7 + 1 + p.fLog2e + 1 = 8 + (p.fLog2e + 1) by omega, pow_add]; norm_num
  rw [h3, product]
  calc significand (decompose x) * multiplier p b ≤ 255 * multiplier p b := Nat.mul_le_mul_right _ (by omega)
    _ ≤ 255 * 2 ^ (p.fLog2e + 1) := Nat.mul_le_mul_left _ h2.le
    _ < 256 * 2 ^ (p.fLog2e + 1) := Nat.mul_lt_mul_of_pos_right (by norm_num) (by positivity)

/-- The aligned magnitude fits its register: no bit is lost by the widest left shift. -/
theorem aligned_lt (p : Params) (h : Params.sound p = true) (x : Word) (b : Bool) (hx : InWindow p x) :
    aligned p (decompose x) b < 2 ^ alignW p := by
  have hf := fracW_cast p h
  have hi := intW_cast p h
  obtain ⟨_, _, hlo, hhi⟩ := hx
  have hk : sigW + p.fLog2e + 1 + ((decompose x).unbiasedExponent - p.negEMin).toNat ≤ alignW p := by
    simp only [sigW, alignW, mW]; omega
  calc aligned p (decompose x) b
      < 2 ^ (sigW + p.fLog2e + 1) * 2 ^ ((decompose x).unbiasedExponent - p.negEMin).toNat :=
        Nat.mul_lt_mul_of_pos_right (product_lt p h x b) (by positivity)
    _ = 2 ^ (sigW + p.fLog2e + 1 + ((decompose x).unbiasedExponent - p.negEMin).toNat) := (pow_add _ _ _).symm
    _ ≤ 2 ^ alignW p := Nat.pow_le_pow_right (by norm_num) hk

/-- The split of the aligned magnitude into its integer part and its fraction. -/
theorem rangeReduce_spec (p : Params) (h : Params.sound p = true) (x : Word) (b : Bool) (hx : InWindow p x) :
    (rangeReduce p (decompose x) b).bias = aligned p (decompose x) b / 2 ^ fracW p ∧
      (rangeReduce p (decompose x) b).frac = aligned p (decompose x) b % 2 ^ fracW p := by
  have hp := fracW_pos p h
  constructor
  · exact bits_top _ _ _ (aligned_lt p h x b hx) (by simp [alignW]) (by simp only [alignW]; omega)
  · exact bits_low _ _ hp

theorem rangeReduce_frac_lt (p : Params) (h : Params.sound p = true) (x : Word) (b : Bool)
    (hx : InWindow p x) : (rangeReduce p (decompose x) b).frac < 2 ^ fracW p := by
  rw [(rangeReduce_spec p h x b hx).2]
  exact Nat.mod_lt _ (by positivity)

/-! The evaluator. -/

theorem lutIndex_eq (p : Params) (h : Params.sound p = true) (frac : Nat) (hf : frac < 2 ^ fracW p) :
    lutIndex p frac = frac / 2 ^ (fracW p - p.lutAddrW) ∧ lutIndex p frac < lutSize p := by
  have hp := (sound_iff p).mp h
  have h1 : lutIndex p frac = frac / 2 ^ (fracW p - p.lutAddrW) :=
    bits_top _ _ _ hf (Nat.sub_le _ _) (fracW_pos p h)
  refine ⟨h1, ?_⟩
  rw [h1, lutSize, Nat.div_lt_iff_lt_mul (by positivity), ← pow_add, Nat.add_sub_cancel' hp.2.1]
  exact hf

theorem mirroredIndex_lt (p : Params) (frac : Nat) : mirroredIndex p frac < lutSize p := by
  have : 0 < lutSize p := by simp [lutSize]
  simp only [mirroredIndex]
  omega

/-- A fraction that selects entry `j` is at most the largest of its segment. -/
theorem frac_le_segmentTop (p : Params) (h : Params.sound p = true) (frac : Nat) (hf : frac < 2 ^ fracW p) :
    frac ≤ segmentTop p (mirroredIndex p frac) := by
  obtain ⟨h1, h2⟩ := lutIndex_eq p h frac hf
  have h3 : lutSize p - mirroredIndex p frac = lutIndex p frac + 1 := by
    simp only [mirroredIndex]; omega
  have h4 := Nat.lt_mul_div_succ frac (show 0 < 2 ^ (fracW p - p.lutAddrW) by positivity)
  rw [segmentTop, h3, h1]
  rw [Nat.mul_comm] at h4
  omega

/-- The evaluator reads an entry of the ROM, and its line is positive (42_lut_poly_evaluator.md rule R131)
and below `2^(W_COEFF+FRAC_W)` (rule R124). -/
theorem selected_line (c : Configuration) (frac : Nat) (hf : frac < 2 ^ fracW c.params) :
    ∃ a b, rom c.params c.table (mirroredIndex c.params frac) = some (a, b) ∧
      a < 2 ^ fCoeff c.params ∧ b < 2 ^ fCoeff c.params ∧ 0 < lineValue c.params a b frac ∧
      lineValue c.params a b frac < ((2 ^ accF c.params : Nat) : Int) := by
  obtain ⟨e, he, _, hadm, ha, hb⟩ :=
    entry_of_admitted c.params c.table c.admitted _ (mirroredIndex_lt c.params frac)
  refine ⟨entrySlope c.params e, entryIntercept c.params e, by simp [rom, he], ha, hb, ?_, ?_⟩
  · have h1 := frac_le_segmentTop c.params c.sound frac hf
    have h2 : entrySlope c.params e * frac ≤
        entrySlope c.params e * segmentTop c.params (mirroredIndex c.params frac) := Nat.mul_le_mul_left _ h1
    simp only [lineValue, shl]
    omega
  · have h1 : shl (entryIntercept c.params e) (fracW c.params) < 2 ^ accF c.params := by
      rw [shl, accF, pow_add]
      exact Nat.mul_lt_mul_of_pos_right hb (by positivity)
    simp only [lineValue]
    omega

/-- On an admitted table the evaluator normalizes a positive line value. -/
theorem polyEval_eq (c : Configuration) (frac a b : Nat)
    (hr : rom c.params c.table (mirroredIndex c.params frac) = some (a, b))
    (hpos : 0 < lineValue c.params a b frac) :
    polyEval c.params c.table frac = normalizeLine c.params (lineValue c.params a b frac).toNat := by
  have h1 : ¬ lineValue c.params a b frac = 0 := by omega
  have h2 : ¬ lineValue c.params a b frac < 0 := by omega
  simp [polyEval, hr, evalLine, h1, h2]

/-- Normalization keeps every bit of `res` and puts its top set bit at the top of the register. -/
theorem normalizeLine_spec (p : Params) (res : Nat) (hpos : 0 < res)
    (hlt : res < 2 ^ (p.wCoeff + fracW p)) :
    (normalizeLine p res).pzero = false ∧
      (normalizeLine p res).mant = res * 2 ^ (polyF p - msb res) ∧ msb res < p.wCoeff + fracW p ∧
      2 ^ polyF p ≤ (normalizeLine p res).mant ∧ (normalizeLine p res).mant < 2 ^ (polyF p + 1) := by
  have hm := msb_lt res _ hpos hlt
  obtain ⟨hb1, hb2⟩ := msb_bounds res hpos
  have hF := polyF_eq p
  have hmant : (normalizeLine p res).mant = res * 2 ^ (polyF p - msb res) := rfl
  refine ⟨rfl, hmant, hm, ?_, ?_⟩
  · rw [hmant]
    calc 2 ^ polyF p = 2 ^ msb res * 2 ^ (polyF p - msb res) := by rw [← pow_add]; congr 1; omega
      _ ≤ _ := Nat.mul_le_mul_right _ hb1
  · rw [hmant]
    calc res * 2 ^ (polyF p - msb res) < 2 ^ (msb res + 1) * 2 ^ (polyF p - msb res) :=
          Nat.mul_lt_mul_of_pos_right hb2 (by positivity)
      _ = 2 ^ (polyF p + 1) := by rw [← pow_add]; congr 1; omega

/-! The rounder. -/

/-- The rounded mantissa is the floor at the rounding position, or one more. -/
theorem roundedKept_bounds (p : Params) (mant : Nat) (e : Int) :
    mant / 2 ^ roundShift p e ≤ roundedKept p mant e ∧
      roundedKept p mant e ≤ mant / 2 ^ roundShift p e + 1 := by
  simp only [roundedKept, shr]
  constructor
  · omega
  · have := Bool.toNat_le (roundUp (guardBit mant (roundShift p e)) (stickyBit mant (roundShift p e))
      (mant / 2 ^ roundShift p e))
    omega

/-- The rounding decision as arithmetic: the remainder is compared with half, and an exact half goes to the
even kept mantissa (43_rounder_normalizer.md rules R144, R145). -/
theorem roundedKept_eq (p : Params) (mant : Nat) (e : Int) (hs : 1 ≤ roundShift p e) :
    roundedKept p mant e = mant / 2 ^ roundShift p e +
      if 2 ^ roundShift p e < 2 * (mant % 2 ^ roundShift p e) ∨
          (2 * (mant % 2 ^ roundShift p e) = 2 ^ roundShift p e ∧ mant / 2 ^ roundShift p e % 2 = 1)
        then 1 else 0 := by
  obtain ⟨k, hk⟩ : ∃ k, roundShift p e = k + 1 := ⟨roundShift p e - 1, by omega⟩
  simp only [roundedKept, shr, guardBit, stickyBit, roundUp, hk, Nat.add_sub_cancel]
  have hq : mant / 2 ^ (k + 1) = mant / 2 ^ k / 2 := by rw [pow_succ, Nat.div_div_eq_div_mul]
  have hr : mant % 2 ^ (k + 1) = mant % 2 ^ k + 2 ^ k * (mant / 2 ^ k % 2) := by
    rw [pow_succ, Nat.mod_mul]
  have hlt : mant % 2 ^ k < 2 ^ k := Nat.mod_lt _ (by positivity)
  rw [hr, hq, pow_succ]
  rcases Nat.mod_two_eq_zero_or_one (mant / 2 ^ k) with hg | hg
  · have : ¬ (2 ^ k * 2 < 2 * (mant % 2 ^ k + 2 ^ k * 0) ∨
        2 * (mant % 2 ^ k + 2 ^ k * 0) = 2 ^ k * 2 ∧ mant / 2 ^ k / 2 % 2 = 1) := by omega
    simp [hg]; omega
  · by_cases hst : mant % 2 ^ k = 0
    · rcases Nat.mod_two_eq_zero_or_one (mant / 2 ^ k / 2) with ho | ho <;> simp [hg, hst, ho, Nat.mul_comm]
    · have h1 : 2 ^ k * 2 < 2 * (mant % 2 ^ k + 2 ^ k) := by omega
      simp [hg, hst, h1]

end Sys2Proof.Machine
end

