-- ==== Sys2Proof/Laws/State.lean ====
section
/-! SUPPORT. What each state operation does to each field, one lemma a field, so that no proof unfolds a
record update. -/

namespace Sys2Proof.Machine

/-! `y_raw` shows an unspecified value. -/

@[simp] theorem showUnspecified_cfg (s : State) : s.showUnspecified.cfg = s.cfg := rfl
@[simp] theorem showUnspecified_tableLoaded (s : State) : s.showUnspecified.tableLoaded = s.tableLoaded := rfl
@[simp] theorem showUnspecified_base2 (s : State) : s.showUnspecified.base2 = s.base2 := rfl
@[simp] theorem showUnspecified_xRaw (s : State) : s.showUnspecified.xRaw = s.xRaw := rfl
@[simp] theorem showUnspecified_phase (s : State) : s.showUnspecified.phase = s.phase := rfl
@[simp] theorem showUnspecified_pipe (s : State) : s.showUnspecified.pipe = s.pipe := rfl
@[simp] theorem showUnspecified_events (s : State) : s.showUnspecified.events = s.events := rfl
@[simp] theorem showUnspecified_responses (s : State) : s.showUnspecified.responses = s.responses := rfl
@[simp] theorem showUnspecified_position (s : State) : s.showUnspecified.position = s.position := rfl

/-! The combinational block drives `y_raw`. -/

@[simp] theorem drive_cfg (s : State) : s.drive.cfg = s.cfg := rfl
@[simp] theorem drive_tableLoaded (s : State) : s.drive.tableLoaded = s.tableLoaded := rfl
@[simp] theorem drive_base2 (s : State) : s.drive.base2 = s.base2 := rfl
@[simp] theorem drive_xRaw (s : State) : s.drive.xRaw = s.xRaw := rfl
@[simp] theorem drive_yRaw (s : State) : s.drive.yRaw = respond s.cfg s.base2 s.xRaw := rfl
@[simp] theorem drive_phase (s : State) : s.drive.phase = s.phase := rfl
@[simp] theorem drive_pipe (s : State) : s.drive.pipe = s.pipe := rfl
@[simp] theorem drive_events (s : State) : s.drive.events = s.events := rfl
@[simp] theorem drive_responses (s : State) : s.drive.responses = s.responses := rfl
@[simp] theorem drive_position (s : State) : s.drive.position = s.position := rfl
@[simp] theorem drive_freeCount (s : State) : s.drive.freeCount = s.freeCount := rfl

/-- A port that shows the response already is left as it is. -/
theorem drive_eq_self (s : State) (h : s.yRaw = respond s.cfg s.base2 s.xRaw) : s.drive = s := by
  rw [State.drive, ← h]

/-! The phase of stable inputs. -/

@[simp] theorem ofStable_true : PortPhase.ofStable true = .settled := rfl
@[simp] theorem ofStable_false : PortPhase.ofStable false = .unspecified := rfl

theorem ofStable_eq_settled_iff (b : Bool) : PortPhase.ofStable b = .settled ↔ b = true := by
  cases b <;> decide

/-- Settling changes the phase alone, and that only from inputs that were changing. -/
theorem settle_eq (s : State) :
    s.settle = { s with phase := if s.phase = .changing then .ofStable s.tableLoaded else s.phase } := by
  obtain ⟨cfg, tl, b, x, y, ph, pipe, ev, rs, pos, fc⟩ := s
  cases ph <;> rfl

@[simp] theorem settle_cfg (s : State) : s.settle.cfg = s.cfg := by rw [settle_eq]
@[simp] theorem settle_tableLoaded (s : State) : s.settle.tableLoaded = s.tableLoaded := by rw [settle_eq]
@[simp] theorem settle_base2 (s : State) : s.settle.base2 = s.base2 := by rw [settle_eq]
@[simp] theorem settle_xRaw (s : State) : s.settle.xRaw = s.xRaw := by rw [settle_eq]
@[simp] theorem settle_yRaw (s : State) : s.settle.yRaw = s.yRaw := by rw [settle_eq]
@[simp] theorem settle_pipe (s : State) : s.settle.pipe = s.pipe := by rw [settle_eq]
@[simp] theorem settle_events (s : State) : s.settle.events = s.events := by rw [settle_eq]
@[simp] theorem settle_responses (s : State) : s.settle.responses = s.responses := by rw [settle_eq]
@[simp] theorem settle_position (s : State) : s.settle.position = s.position := by rw [settle_eq]
@[simp] theorem settle_freeCount (s : State) : s.settle.freeCount = s.freeCount := by rw [settle_eq]

theorem settle_phase (s : State) :
    s.settle.phase = if s.phase = .changing then .ofStable s.tableLoaded else s.phase := by rw [settle_eq]

/-! A response is delivered. -/

@[simp] theorem deliver_cfg (y : Word) (s : State) : (s.deliver y).cfg = s.cfg := rfl
@[simp] theorem deliver_tableLoaded (y : Word) (s : State) : (s.deliver y).tableLoaded = s.tableLoaded := rfl
@[simp] theorem deliver_base2 (y : Word) (s : State) : (s.deliver y).base2 = s.base2 := rfl
@[simp] theorem deliver_xRaw (y : Word) (s : State) : (s.deliver y).xRaw = s.xRaw := rfl
@[simp] theorem deliver_yRaw (y : Word) (s : State) : (s.deliver y).yRaw = y := rfl
@[simp] theorem deliver_phase (y : Word) (s : State) : (s.deliver y).phase = s.phase := rfl
@[simp] theorem deliver_pipe (y : Word) (s : State) : (s.deliver y).pipe = s.pipe := rfl
@[simp] theorem deliver_events (y : Word) (s : State) : (s.deliver y).events = s.events := rfl
@[simp] theorem deliver_responses (y : Word) (s : State) :
    (s.deliver y).responses = s.responses ++ [y] := rfl
@[simp] theorem deliver_position (y : Word) (s : State) : (s.deliver y).position = s.position := rfl
@[simp] theorem deliver_freeCount (y : Word) (s : State) : (s.deliver y).freeCount = s.freeCount := rfl

/-! A request is presented on the ports. -/

@[simp] theorem present_cfg (b : Bool) (x : Word) (s : State) : (s.present b x).cfg = s.cfg := rfl
@[simp] theorem present_tableLoaded (b : Bool) (x : Word) (s : State) :
    (s.present b x).tableLoaded = s.tableLoaded := rfl
@[simp] theorem present_base2 (b : Bool) (x : Word) (s : State) : (s.present b x).base2 = b := rfl
@[simp] theorem present_xRaw (b : Bool) (x : Word) (s : State) : (s.present b x).xRaw = x := rfl
@[simp] theorem present_yRaw (b : Bool) (x : Word) (s : State) : (s.present b x).yRaw = s.yRaw := rfl
@[simp] theorem present_phase (b : Bool) (x : Word) (s : State) :
    (s.present b x).phase = .ofStable s.tableLoaded := rfl
@[simp] theorem present_pipe (b : Bool) (x : Word) (s : State) : (s.present b x).pipe = s.pipe := rfl
@[simp] theorem present_events (b : Bool) (x : Word) (s : State) : (s.present b x).events = s.events := rfl
@[simp] theorem present_responses (b : Bool) (x : Word) (s : State) :
    (s.present b x).responses = s.responses := rfl
@[simp] theorem present_position (b : Bool) (x : Word) (s : State) :
    (s.present b x).position = s.position + 1 := rfl
@[simp] theorem present_freeCount (b : Bool) (x : Word) (s : State) :
    (s.present b x).freeCount = s.freeCount := rfl

/-! Power-up and the host's next request. -/

@[simp] theorem powerUp_cfg (c : Configuration) : (State.powerUp c).cfg = c := rfl
@[simp] theorem powerUp_tableLoaded (c : Configuration) : (State.powerUp c).tableLoaded = true := rfl
@[simp] theorem powerUp_phase (c : Configuration) : (State.powerUp c).phase = .unspecified := rfl
@[simp] theorem powerUp_pipe (c : Configuration) :
    (State.powerUp c).pipe = List.replicate c.params.latency none := rfl
@[simp] theorem powerUp_events (c : Configuration) : (State.powerUp c).events = [] := rfl
@[simp] theorem powerUp_responses (c : Configuration) : (State.powerUp c).responses = [] := rfl
@[simp] theorem powerUp_position (c : Configuration) : (State.powerUp c).position = 0 := rfl

@[simp] theorem withFetchWord_cfg (s : State) (n w : Nat) : (s.withFetchWord n w).cfg = s.cfg := rfl
@[simp] theorem withFetchWord_pipe (s : State) (n w : Nat) : (s.withFetchWord n w).pipe = s.pipe := rfl
@[simp] theorem withFetchWord_events (s : State) (n w : Nat) :
    (s.withFetchWord n w).events = .request (BitVec.ofNat 17 (w % 2 ^ n)) :: s.events.tail := rfl

end Sys2Proof.Machine
end

