-- ==== Sys2Proof/Laws/Ops.lean ====
section
/-! SUPPORT. What one cycle, one instruction and one step can do, said once; later proofs cite these lemmas
and unfold none of the operations. -/

namespace Sys2Proof.Machine

@[simp] theorem settle_outstanding (s : State) : s.settle.outstanding = s.outstanding := by
  simp [State.outstanding]

/-- The three things a cycle can do: deliver a response, drive the settled port, or leave `y_raw`
unspecified. -/
theorem cycle_cases (e : Option Word) (s : State) :
    (∃ y rest, s.pipe ++ [e] = some y :: rest ∧ s.cycle e = ({ s with pipe := rest }).deliver y) ∨
      (e = none ∧ s.pipe = [] ∧ s.phase = .settled ∧ s.cycle e = s.drive) ∨
      (∃ rest, s.pipe ++ [e] = none :: rest ∧ (s.pipe = [] → s.phase ≠ .settled) ∧
        s.cycle e = ({ s with pipe := rest }).showUnspecified) := by
  obtain ⟨cfg, tl, b, x, y, ph, pipe, ev, rs, pos, fc⟩ := s
  cases pipe with
  | nil =>
    cases e with
    | some v => exact .inl ⟨v, [], rfl, rfl⟩
    | none =>
      by_cases hp : ph = .settled
      · exact .inr (.inl ⟨rfl, rfl, hp, by simp [State.cycle, hp]⟩)
      · exact .inr (.inr ⟨[], rfl, fun _ => hp, by simp [State.cycle, hp]⟩)
  | cons due rest =>
    cases due with
    | some v => exact .inl ⟨v, rest ++ [e], rfl, rfl⟩
    | none => exact .inr (.inr ⟨rest ++ [e], rfl, nofun, rfl⟩)

@[simp] theorem cycle_cfg (e : Option Word) (s : State) : (s.cycle e).cfg = s.cfg := by
  obtain ⟨_, _, _, h⟩ | ⟨_, _, _, h⟩ | ⟨_, _, _, h⟩ := cycle_cases e s <;> rw [h] <;> rfl

@[simp] theorem cycle_tableLoaded (e : Option Word) (s : State) :
    (s.cycle e).tableLoaded = s.tableLoaded := by
  obtain ⟨_, _, _, h⟩ | ⟨_, _, _, h⟩ | ⟨_, _, _, h⟩ := cycle_cases e s <;> rw [h] <;> rfl

@[simp] theorem cycle_base2 (e : Option Word) (s : State) : (s.cycle e).base2 = s.base2 := by
  obtain ⟨_, _, _, h⟩ | ⟨_, _, _, h⟩ | ⟨_, _, _, h⟩ := cycle_cases e s <;> rw [h] <;> rfl

@[simp] theorem cycle_xRaw (e : Option Word) (s : State) : (s.cycle e).xRaw = s.xRaw := by
  obtain ⟨_, _, _, h⟩ | ⟨_, _, _, h⟩ | ⟨_, _, _, h⟩ := cycle_cases e s <;> rw [h] <;> rfl

@[simp] theorem cycle_phase (e : Option Word) (s : State) : (s.cycle e).phase = s.phase := by
  obtain ⟨_, _, _, h⟩ | ⟨_, _, _, h⟩ | ⟨_, _, _, h⟩ := cycle_cases e s <;> rw [h] <;> rfl

@[simp] theorem cycle_events (e : Option Word) (s : State) : (s.cycle e).events = s.events := by
  obtain ⟨_, _, _, h⟩ | ⟨_, _, _, h⟩ | ⟨_, _, _, h⟩ := cycle_cases e s <;> rw [h] <;> rfl

@[simp] theorem cycle_position (e : Option Word) (s : State) : (s.cycle e).position = s.position := by
  obtain ⟨_, _, _, h⟩ | ⟨_, _, _, h⟩ | ⟨_, _, _, h⟩ := cycle_cases e s <;> rw [h] <;> rfl

/-- The pipe moves by one place a cycle. -/
theorem cycle_pipe (e : Option Word) (s : State) : (s.cycle e).pipe = (s.pipe ++ [e]).tail := by
  obtain ⟨y, rest, hp, h⟩ | ⟨he, hp, _, h⟩ | ⟨rest, hp, _, h⟩ := cycle_cases e s
  · rw [h, hp]; rfl
  · rw [h, drive_pipe, hp]; rfl
  · rw [h, hp]; rfl

@[simp] theorem cycle_pipe_length (e : Option Word) (s : State) :
    (s.cycle e).pipe.length = s.pipe.length := by
  rw [cycle_pipe]; simp

/-- A cycle loses and repeats no response: it adds the accepted request's, if there is one. -/
theorem cycle_outstanding (e : Option Word) (s : State) :
    (s.cycle e).outstanding = s.outstanding ++ e.toList := by
  obtain ⟨y, rest, hp, h⟩ | ⟨he, hp, _, h⟩ | ⟨rest, hp, _, h⟩ := cycle_cases e s
  · have := congrArg (List.filterMap id) hp
    rw [h]
    cases e <;> simp_all [State.outstanding]
  · rw [h, he]; simp [State.outstanding]
  · have := congrArg (List.filterMap id) hp
    rw [h]
    cases e <;> simp_all [State.outstanding]

/-- In the combinational form the response is on `y_raw` at once. -/
theorem cycle_yRaw_combinational (y : Word) (s : State) (h : s.pipe = []) :
    (s.cycle (some y)).yRaw = y := by
  obtain ⟨cfg, tl, b, x, y₀, ph, pipe, ev, rs, pos, fc⟩ := s
  subst h
  rfl

/-- In the combinational form `y_raw` is the response to what the ports have settled on. -/
theorem cycle_none_settled (s : State) (h : s.pipe = []) (hs : s.phase = .settled) :
    s.cycle none = s.drive := by
  simp [State.cycle, h, hs]

/-- In a cycle without a request the combinational `y_raw` is unspecified until the inputs have settled. -/
theorem cycle_none_unsettled (s : State) (h : s.pipe = []) (hs : s.phase ≠ .settled) :
    s.cycle none = s.showUnspecified := by
  simp [State.cycle, h, hs]

/-! The served request. -/

/-- The response a request is given: the operation's, or an unspecified value before the table holds its
final contents. -/
def responseGiven (s : State) (b : Bool) (x : Word) : Word :=
  if s.tableLoaded then respond s.cfg b x else Config.unspecifiedResponse s.freeCount

/-- Executing an instruction always answers a next state: its request on the ports, one position on, and its
response accepted in this cycle. -/
theorem exec_next (i : Instr) (s : State) :
    ∃ u : State, exec i s = .next (u.cycle (some (responseGiven s i.base2 i.operand))) ∧
      u = { s.present i.base2 i.operand with freeCount := u.freeCount } := by
  cases i with
  | exp2 x =>
    by_cases h : s.tableLoaded = true
    · exact ⟨s.present true x, by
        simp [exec, execExp2, State.serve, responseGiven, h, Instr.base2, Instr.operand], rfl⟩
    · exact ⟨{ s.present true x with freeCount := s.freeCount + 1 }, by
        simp [exec, execExp2, State.serve, responseGiven, h], rfl⟩
  | expE x =>
    by_cases h : s.tableLoaded = true
    · exact ⟨s.present false x, by
        simp [exec, execExpE, State.serve, responseGiven, h, Instr.base2, Instr.operand], rfl⟩
    · exact ⟨{ s.present false x with freeCount := s.freeCount + 1 }, by
        simp [exec, execExpE, State.serve, responseGiven, h], rfl⟩

/-- What a step can do: run the next request, or pass a cycle without one. In such a cycle the ports change
only by a changing event, a loaded table stays loaded, and the inputs are settled after it only if they were
before or have been stable in it. -/
theorem step_cases (s : State) :
    (∃ w rest, s.events = .request w :: rest ∧ step s = exec (decodeWord w) { s with events := rest }) ∨
      ((∀ w rest, s.events ≠ .request w :: rest) ∧ ∃ u : State, step s = .next (u.cycle none) ∧
        u = { s with tableLoaded := u.tableLoaded, base2 := u.base2, xRaw := u.xRaw, phase := u.phase,
                     events := s.events.tail } ∧
        (s.tableLoaded = true → u.tableLoaded = true) ∧
        (u.phase = .settled → s.phase = .settled ∨ s.phase = .changing ∧ s.tableLoaded = true) ∧
        ((∀ w rest, s.events ≠ .changing w :: rest) → u.base2 = s.base2 ∧ u.xRaw = s.xRaw) ∧
        ((∃ w rest, s.events = .changing w :: rest) → u.phase ≠ .settled)) := by
  have idle : ∀ t : State, t.settle.phase = .settled →
      t.phase = .settled ∨ t.phase = .changing ∧ t.tableLoaded = true := fun t h => by
    rw [settle_eq] at h
    by_cases hc : t.phase = .changing
    · exact .inr ⟨hc, (ofStable_eq_settled_iff _).mp (by simpa [hc] using h)⟩
    · exact .inl (by simpa [hc] using h)
  obtain ⟨cfg, tl, b, x, y, ph, pipe, ev, rs, pos, fc⟩ := s
  cases ev with
  | nil =>
    exact .inr ⟨nofun, _, rfl, by cases ph <;> rfl, by simp, idle ⟨cfg, tl, b, x, y, ph, pipe, [], rs, pos, fc⟩,
      by simp, nofun⟩
  | cons e rest =>
    cases e with
    | request w => exact .inl ⟨w, rest, rfl, rfl⟩
    | idle =>
      exact .inr ⟨nofun, _, rfl, by cases ph <;> rfl, by simp,
        idle ⟨cfg, tl, b, x, y, ph, pipe, rest, rs, pos, fc⟩, by simp, nofun⟩
    | changing w =>
      exact .inr ⟨nofun, _, rfl, rfl, id, nofun, fun h => absurd rfl (h w rest), fun _ => nofun⟩
    | loadComplete => exact .inr ⟨nofun, _, rfl, rfl, fun _ => rfl, .inl, fun _ => ⟨rfl, rfl⟩, nofun⟩

/-! Runs of steps. -/

@[simp] theorem run_zero (s : State) : Host.Core.run Sys2Proof.core 0 s = .next s := rfl

theorem run_succ (k : Nat) (s t : State) (h : step s = .next t) :
    Host.Core.run Sys2Proof.core (k + 1) s = Host.Core.run Sys2Proof.core k t := by
  have h' : Sys2Proof.core.step s = .next t := h
  simp only [Host.Core.run, h']

end Sys2Proof.Machine
end

