-- ==== Sys2Proof/Laws/PerInstr.lean ====
section
/-! SUPPORT. Statements about every instruction as syntax, one lemma for each constructor. -/

/-- Encoding puts the mode and the operand in their fields (30_encoding.md rules R61, R64). -/
def Sys2Proof.Laws.EncodedFields.Statement (i : Sys2Proof.Instr) : Prop :=
  (Sys2Proof.encode i).mode = i.base2 ∧ (Sys2Proof.encode i).operand = i.operand

theorem Sys2Proof.Laws.EncodedFields.exp2 (x : Sys2Proof.Word) :
    Sys2Proof.Laws.EncodedFields.Statement (.exp2 x) := by
  have := x.isLt
  constructor
  · show (BitVec.ofNat 17 (0x10000 + x.toNat)).getLsbD 16 = true
    simp only [BitVec.getLsbD_ofNat, Nat.testBit_eq_decide_div_mod_eq]
    simp
    omega
  · show (BitVec.ofNat 17 (0x10000 + x.toNat)).extractLsb' 0 16 = x
    apply BitVec.eq_of_toNat_eq
    simp
    omega

theorem Sys2Proof.Laws.EncodedFields.expE (x : Sys2Proof.Word) :
    Sys2Proof.Laws.EncodedFields.Statement (.expE x) := by
  have := x.isLt
  constructor
  · show (BitVec.ofNat 17 (0x00000 + x.toNat)).getLsbD 16 = false
    simp only [BitVec.getLsbD_ofNat, Nat.testBit_eq_decide_div_mod_eq]
    simp
    omega
  · show (BitVec.ofNat 17 (0x00000 + x.toNat)).extractLsb' 0 16 = x
    apply BitVec.eq_of_toNat_eq
    simp
    omega
end

