-- ==== Sys2Proof/Tests/Slice0.lean ====
section
/-! SUPPORT. Tests. Expected results are the spec's: the vectors of 95_test_vectors.md, or words written out
from 30_encoding.md. The witnesses at the end meet the hypotheses of the obligations. -/

namespace Sys2Proof.Machine.Tests

open Sys2Proof Sys2Proof.Machine

/-! The fixture table T_FIX (95_test_vectors.md section 2.2), which is not the hardware's table. -/

def tFix : Memory :=
  [0xD9345934, 0xDA295A2D, 0xDB1D5B29, 0xDC0F5C27, 0xDD005D28, 0xDDEF5E2B, 0xDEDD5F32, 0xDFC9603B] ++
  [0xE0B46147, 0xE19D6257, 0xE2856369, 0xE36A647E, 0xE44E6596, 0xE52F66B1, 0xE60F67CF, 0xE6ED68F1] ++
  [0xE7C86A15, 0xE8A16B3D, 0xE9786C68, 0xEA4C6D96, 0xEB1E6EC8, 0xEBEE6FFC, 0xECBB7135, 0xED857270] ++
  [0xEE4C73AF, 0xEF1174F2, 0xEFD27638, 0xF0917781, 0xF14C78CE, 0xF2057A1F, 0xF2B97B74, 0xF36B7CCC] ++
  [0xF4197E28, 0xF4C37F87, 0xF56A80EB, 0xF60D8252, 0xF6AC83BE, 0xF746852D, 0xF7DD86A0, 0xF8708817] ++
  [0xF8FE8993, 0xF9888B12, 0xFA0D8C96, 0xFA8E8E1E, 0xFB0A8FAA, 0xFB81913A, 0xFBF292CF, 0xFC5F9469] ++
  [0xFCC79606, 0xFD2997A8, 0xFD85994F, 0xFDDC9AFB, 0xFE2D9CAB, 0xFE789E5F, 0xFEBDA019, 0xFEFCA1D7] ++
  [0xFF34A39A, 0xFF66A562, 0xFF91A72F, 0xFFB6A901, 0xFFD3AAD9, 0xFFE9ACB5, 0xFFF8AE96, 0xFFFFB07D]

theorem test_fixture_is_admitted : Memory.admitted Params.reference tFix = true := by decide

def fixture : Configuration where
  params := Params.reference
  table := tFix
  sound := reference_sound
  admitted := test_fixture_is_admitted

/-- The start state of the programs of 95_test_vectors.md section 10. -/
def start : State := State.powerUp fixture

/-- A registered implementation of two cycles with the same table (70_reset_and_hazards.md rule R203). -/
def registered : Configuration where
  params := { Params.reference with latency := 2 }
  table := tFix
  sound := by decide
  admitted := by decide

/-- The responses given and the value of `y_raw` after an outcome. -/
def shown (o : Host.Outcome State Fault Refusal) : Option (List Word × Word) :=
  match o with
  | .next t => some (t.responses, t.yRaw)
  | _ => none

/-- The reason a configuration is refused. -/
def refusalOf (r : Except Refusal Configuration) : Option Refusal :=
  match r with
  | .error e => some e
  | .ok _ => none

/-! Decoding: words written out from 30_encoding.md rules R61 and R64, and the notation of rule R70. -/

/-- Mode bit 1, then sign 1, exponent 0111_1111, mantissa 000_0000. -/
theorem test_decode_exp2 : decodeWord 0b1_1_01111111_0000000#17 = .exp2 0xBF80 := by decide

/-- Mode bit 0, then sign 1, exponent 1000_0101, mantissa 011_1010. -/
theorem test_decode_expE : decodeWord 0b0_1_10000101_0111010#17 = .expE 0xC2BA := by decide

theorem test_encode : encode (.exp2 0xC1A0) = 0x1C1A0#17 ∧ encode (.expE 0xC1A0) = 0x0C1A0#17 := by decide

theorem test_asm : (Instr.exp2 0xBF80).asm = "EXP2 0xBF80" ∧ (Instr.expE 0x7F81).asm = "EXPE 0x7F81" := by
  decide

/-! Well-formedness: for each check, a term that it refuses. -/

theorem test_long_word_refused : isRequestWord 0x20000 = false ∧ decode 0x20000 = .error .notARequestWord ∧
    isRequestWord 0x1FFFF = true := by decide

theorem test_lutAddrPositive_refused :
    Params.broken { Params.reference with lutAddrW := 0 } = [.lutAddrPositive] := by decide

/-- `FRAC_W` is 32. -/
theorem test_lutAddrWithinFrac_refused :
    Params.broken { Params.reference with lutAddrW := 33 } = [.lutAddrWithinFrac] := by decide

theorem test_coeffPositive_refused :
    Params.broken { Params.reference with wCoeff := 0 } = [.coeffPositive] := by decide

theorem test_coeffIntegerBits_refused :
    Params.broken { Params.reference with iCoeff := 17 } = [.coeffIntegerBits] := by decide

theorem test_log2eFraction_refused :
    Params.broken { Params.reference with fLog2e := 0, log2eFx := 1 } = [.log2eFraction] := by decide

theorem test_windowAroundZero_refused :
    Params.broken { Params.reference with negEMin := 0 } = [.windowAroundZero] ∧
      Params.broken { Params.reference with negEMax := -1 } = [.windowAroundZero] := by decide

/-- `POLY_F` falls to `M_W` only where other constraints break with it. -/
theorem test_roundingShift_refused :
    Params.broken { Params.reference with lutAddrW := 1, wCoeff := 0, fLog2e := 0, log2eFx := 1, negEMin := 8 } =
      [.lutAddrWithinFrac, .coeffPositive, .log2eFraction, .windowAroundZero, .roundingShift] := by decide

/-- `INT_W` is derived as `2 + NEG_E_MAX`, so no parameters break this constraint. -/
theorem test_integerWidth_never_broken (p : Params) : Constraint.holds p .integerWidth = true := by
  have h : p.negEMax + 2 ≤ (intW p : Int) := by unfold intW; omega
  exact decide_eq_true h

/-- 17 bits are the most `LOG2E_FX` has. -/
theorem test_log2eFits_refused :
    Params.broken { Params.reference with log2eFx := 0x20000 } = [.log2eFits] := by decide

theorem test_windowOfNormals_refused :
    Params.broken { Params.reference with negEMin := -126 } = [.windowOfNormals] := by decide

theorem test_build_refuses_parameters :
    refusalOf (Configuration.build { Params.reference with lutAddrW := 0 } tFix) =
      some (.illFormedParameters [.lutAddrPositive]) := by decide

/-- A table that is too short, an entry wider than 32 bits, and a line that is not positive on its segment
(93_implementation_defined.md U2, U4). -/
theorem test_build_refuses_tables :
    refusalOf (Configuration.build Params.reference (tFix.drop 1)) = some .illFormedTable ∧
      refusalOf (Configuration.build Params.reference (tFix.drop 1 ++ [0x1FFFFB07D])) = some .illFormedTable ∧
      refusalOf (Configuration.build Params.reference (0xD934D934 :: tFix.drop 1)) = none ∧
      refusalOf (Configuration.build Params.reference (0xD934D935 :: tFix.drop 1)) = some .illFormedTable ∧
      refusalOf (Configuration.build Params.reference tFix) = none := by decide

/-! The float codec (95_test_vectors.md section 3). -/

theorem test_decompose_normal : decompose 0xC37F =
    { sign := true, unbiasedExponent := 7, mantissaBits := 0x7F, hiddenBit := true,
      status := { isZero := false, isDenormal := false, isInf := false, isNaN := false } } := by decide

theorem test_decompose_exponents :
    [0x0000, 0x8000, 0x0001, 0x807F, 0x0080, 0x3B00, 0xBF7F, 0x7F7F, 0xFF80, 0x7FC0, 0xFFFF].map
        (fun w => (decompose w).unbiasedExponent) =
      [-127, -127, -126, -126, -126, -9, -1, 127, 128, 128, 128] := by decide

theorem test_decompose_classes :
    [0x8000, 0x807F, 0xFF80, 0x7F81].map (fun w => (decompose w).status) =
      [{ isZero := true, isDenormal := false, isInf := false, isNaN := false },
       { isZero := false, isDenormal := true, isInf := false, isNaN := false },
       { isZero := false, isDenormal := false, isInf := true, isNaN := false },
       { isZero := false, isDenormal := false, isInf := false, isNaN := true }] := by decide

theorem test_floatReco :
    floatReco { cls := .zero, finalExp := 0, kept := 0 } = 0x0000 ∧
      floatReco { cls := .inf, finalExp := 128, kept := 128 } = 0x7F80 ∧
      floatReco { cls := .subnormal, finalExp := -126, kept := 127 } = 0x007F ∧
      floatReco { cls := .normal, finalExp := -126, kept := 128 } = 0x0080 ∧
      floatReco { cls := .normal, finalExp := -2, kept := 188 } = 0x3EBC ∧
      floatReco { cls := .normal, finalExp := 127, kept := 255 } = 0x7F7F := by decide

/-! The range reducer (95_test_vectors.md section 4). -/

theorem test_rangeReduce_base2 :
    rangeReduce Params.reference (decompose 0xBB7F) true = { bias := 0, frac := 0x00FF0000 } ∧
      rangeReduce Params.reference (decompose 0xBF80) true = { bias := 1, frac := 0 } ∧
      rangeReduce Params.reference (decompose 0xC37F) true = { bias := 255, frac := 0 } := by decide

theorem test_rangeReduce_natural :
    rangeReduce Params.reference (decompose 0xBF40) false = { bias := 1, frac := 0x14FF0000 } ∧
      rangeReduce Params.reference (decompose 0xC305) false = { bias := 191, frac := 0xE0A40000 } ∧
      rangeReduce Params.reference (decompose 0xC37F) false = { bias := 367, frac := 0xE2AC0000 } := by decide

/-! The evaluator (95_test_vectors.md section 5). -/

theorem test_polyEval_segment_ends :
    polyEval Params.reference tFix 0x03FFFFFF = { pzero := false, mant := 0x3F4F43002C1F4, polyExp := -1 } ∧
      polyEval Params.reference tFix 0x04000000 = { pzero := false, mant := 0x3F4F6A0000000, polyExp := -1 } ∧
      polyEval Params.reference tFix 0xFFFFFFFF = { pzero := false, mant := 0x20000000164D0, polyExp := -1 } := by
  decide

/-- Rule R125: an exact zero. No admitted table reaches it. -/
theorem test_evalLine_zero :
    evalLine Params.reference 0 0 0x80000000 = { pzero := true, mant := 0, polyExp := 0 } := by decide

/-! The rounder (95_test_vectors.md section 6). -/

/-- V1 to V6: the normal range. -/
theorem test_rnePack_normal :
    [(0x2020000000000, -1), (0x2060000000000, -1), (0x2020000000001, -1), (0x201FFFFFFFFFF, -1),
        (0x3FFFFFFFFFFFF, -2), (0x2000000000000, 0)].map (fun v => floatReco (rnePack Params.reference v.1 v.2)) =
      [0x3F00#16, 0x3F02#16, 0x3F01#16, 0x3F00#16, 0x3F00#16, 0x3F80#16] := by decide

/-- V9 to V16: the subnormal range. -/
theorem test_rnePack_subnormal :
    [(0x2000000000000, -127), (0x2040000000000, -127), (0x20C0000000000, -127), (0x3FFFFFFFFFFFF, -127),
        (0x2000000000000, -133), (0x2000000000000, -134), (0x2000000000001, -134),
        (0x3FFFFFFFFFFFF, -300)].map (fun v => rnePack Params.reference v.1 v.2) =
      [{ cls := .subnormal, finalExp := -126, kept := 64 }, { cls := .subnormal, finalExp := -126, kept := 64 },
       { cls := .subnormal, finalExp := -126, kept := 66 }, { cls := .normal, finalExp := -126, kept := 128 },
       { cls := .subnormal, finalExp := -126, kept := 1 }, { cls := .zero, finalExp := -134, kept := 0 },
       { cls := .subnormal, finalExp := -126, kept := 1 }, { cls := .zero, finalExp := -300, kept := 0 }] := by
  decide

/-- V17 to V19: overflow and the largest finite. -/
theorem test_rnePack_overflow :
    [(0x3FFFFFFFFFFFF, 127), (0x3FDFFFFFFFFFF, 127), (0x3FC0000000000, 127)].map
        (fun v => rnePack Params.reference v.1 v.2) =
      [{ cls := .inf, finalExp := 128, kept := 128 }, { cls := .normal, finalExp := 127, kept := 255 },
       { cls := .normal, finalExp := 127, kept := 255 }] := by decide

/-! The dispatcher (95_test_vectors.md section 7), with the hardware's open table: no row but the last reads
it. -/

theorem test_dispatcher_rows :
    [0x7F81, 0xFFC1, 0x8000, 0x7F80, 0xFF80, 0x3B7F, 0x4300, 0x3B80, 0x42FF, 0xBA80, 0x8001, 0xC380].map
        (fun x => respond Configuration.hardware true x) =
      [0x7FC1#16, 0xFFC1#16, 0x3F80#16, 0x7F80#16, 0x0000#16, 0x3F80#16, 0x7F80#16, 0x3F80#16, 0x3F80#16,
       0x3F80#16, 0x3F80#16, 0x0000#16] := by decide

theorem test_dispatcher_window_edges :
    [0xBAFF, 0xBB00, 0xC37F, 0xC380].map (fun x => selectRow Params.reference (decompose x)) =
      [.negSmall, .window, .window, .negLarge] := by decide

/-! The operations (95_test_vectors.md sections 8 and 9), each for one step. -/

theorem test_exp2_window :
    [0xBB00, 0xBF7F, 0xBF80, 0xBD18, 0xC2FC, 0xC305, 0xC306].map (fun x => respond fixture true x) =
      [0x3F80#16, 0x3F00#16, 0x3F00#16, 0x3F7A#16, 0x0080#16, 0x0001#16, 0x0000#16] := by decide

theorem test_expE_window :
    [0xBB00, 0xBF7F, 0xBF80, 0xBF40, 0xC2B9, 0xC2BA, 0xC000].map (fun x => respond fixture false x) =
      [0x3F7F#16, 0x3EBD#16, 0x3EBC#16, 0x3EF2#16, 0x0001#16, 0x0000#16, 0x3E0B#16] := by decide

/-- Program P4, step 1. -/
theorem test_exp2_step :
    shown (step (start.withFetchWord 17 0x1BF80)) = some ([0x3F00#16], 0x3F00#16) := by decide

/-- Program P4, step 0. -/
theorem test_expE_step :
    shown (step (start.withFetchWord 17 0x0BF80)) = some ([0x3EBC#16], 0x3EBC#16) := by decide

/-- The first instruction after reset (program P1, step 0), with the hardware's open table. -/
theorem test_first_step_after_reset :
    shown (step (State.reset.withFetchWord 17 0x10000)) = some ([0x3F80#16], 0x3F80#16) := by decide

/-- Before a RAM-held table is loaded, the response is some value that nothing is known of
(70_reset_and_hazards.md rule R202). -/
theorem test_response_before_load_is_free :
    shown (exec (.exp2 0x0000) { start with tableLoaded := false }) =
      some ([Config.unspecifiedResponse 1], Config.unspecifiedResponse 1) := by rfl

/-- Inputs that change and then stay as they are put their response on `y_raw` (70_reset_and_hazards.md rule
R203); the value is that of 95_test_vectors.md section 8. -/
theorem test_changed_inputs_settle :
    shown (({ start with base2 := true, xRaw := 0xC000, phase := .changing }).idleCycle |> .next) =
      some ([], 0x3E80#16) := by decide

/-! Acceptance of a table: errors of T_FIX in units in the last place (95_test_vectors.md sections 1.3 and
2.3). -/

/-- The nearest double-precision numbers to 2^-0.5 = 0x3FE6A09E667F3BCD and e^-1 = 0x3FD78B56362CEF38
(computed outside the model). -/
theorem test_doubleReference :
    doubleReference true 0xBF00 = { mant := 0x16A09E667F3BCD, exp := -53 } ∧
      doubleReference false 0xBF80 = { mant := 0x178B56362CEF38, exp := -54 } := by decide +kernel

/-- EXP2 0xBD18: 0.5009. -/
theorem test_worst_error_exp2 : ErrorWithin 0.50095 (respond fixture true 0xBD18) (doubleReference true 0xBD18) ∧
    ¬ ErrorWithin 0.50085 (respond fixture true 0xBD18) (doubleReference true 0xBD18) := by decide +kernel

/-- EXPE 0xC295: 0.5530. -/
theorem test_worst_error_expE :
    ErrorWithin 0.55305 (respond fixture false 0xC295) (doubleReference false 0xC295) ∧
      ¬ ErrorWithin 0.55295 (respond fixture false 0xC295) (doubleReference false 0xC295) := by decide +kernel

/-! Witnesses: for each obligation with hypotheses, concrete operands and states that meet all of them, one
for each clause and at the ends of its range. -/

/-- The start state with one coming port event. -/
def startWith (e : PortEvent) : State := { start with events := [e] }

/-- The start state after the request EXP2 0xBF80. -/
def settledStart : State := { start with base2 := true, xRaw := 0xBF80, yRaw := 0x3F00, phase := .settled }

/-- The registered machine with one response due and one place empty. -/
def inFlight : State := { State.powerUp registered with pipe := [some 0x3F80, none], position := 1 }

theorem inWindow_fixture_low : InWindow fixture.params 0xBB00 := by unfold InWindow; decide
theorem inWindow_fixture_high : InWindow fixture.params 0xC37F := by unfold InWindow; decide

theorem witness_ModeBitSelectsTheOperation :
    (0x10000#17).toNat / 2 ^ 16 = 1 ∧ (0x1FFFF#17).toNat / 2 ^ 16 = 1 ∧ (0x0FFFF#17).toNat / 2 ^ 16 = 0 ∧
      (0x00000#17).toNat / 2 ^ 16 = 0 := by decide

theorem witness_OnlySeventeenBitWordsDecode : 0x1FFFF < 2 ^ 17 ∧ 2 ^ 17 ≤ 0x20000 := by decide

theorem witness_StepRunsTheDecodedRequest :
    (startWith (.request 0x1BF80)).events = .request 0x1BF80 :: [] ∧
      decodeTableWord 17 0x1BF80 = some (.exp2 0xBF80) := by decide

/-- Every kind of next event but a request, none among them, and each phase of the inputs. -/
theorem witness_CyclesWithoutRequestGiveNoResponse :
    (∀ w rest, start.events ≠ .request w :: rest) ∧ start.events = [] ∧ start.pipe = [] ∧
      (∀ e ∈ [PortEvent.idle, .changing 0x1C000, .loadComplete],
        (∀ w rest, (startWith e).events ≠ .request w :: rest) ∧ (startWith e).events = e :: []) ∧
      settledStart.phase = .settled ∧
      settledStart.yRaw = respond settledStart.cfg settledStart.base2 settledStart.xRaw ∧
      { start with phase := .changing, tableLoaded := false }.phase = .changing := by
  refine ⟨nofun, rfl, rfl, fun e he => ⟨fun w rest h => ?_, rfl⟩, rfl, by decide, rfl⟩
  have h1 : e = .request w := by
    have := congrArg List.head? h
    simpa [startWith] using this
  subst h1
  simp at he

/-- The first after a change before it, the second after none. -/
theorem witness_ChangedInputsSettleOnceStable :
    start.tableLoaded = true ∧ start.pipe = [] ∧
      { start with events := [.changing 0x0BF80, .changing 0x1C000, .idle] }.events =
        [0x0BF80].map PortEvent.changing ++ .changing 0x1C000 :: .idle :: [] ∧
      { start with events := [.changing 0x1C000, .idle] }.events =
        [].map PortEvent.changing ++ .changing 0x1C000 :: .idle :: [] := by decide

theorem witness_Exp2CompletesWithItsResponse : start.tableLoaded = true ∧ start.pipe = [] := by decide

theorem witness_ExpECompletesWithItsResponse : start.tableLoaded = true ∧ start.pipe = [] := by decide

theorem witness_RegisteredRequestEntersThePipe :
    (inFlight.tableLoaded = true ∧ inFlight.pipe = some 0x3F80#16 :: [none]) ∧
      (State.powerUp registered).tableLoaded = true ∧ (State.powerUp registered).pipe = none :: [none] := by
  decide

/-- A signalling NaN, a quiet one, and a negative one. -/
theorem witness_NanComesBackQuieted : start.tableLoaded = true ∧ (rawExp 0x7F81 = 255 ∧ rawMant 0x7F81 ≠ 0) ∧
    (rawExp 0x7FC0 = 255 ∧ rawMant 0x7FC0 ≠ 0 ∧ rawMant 0x7FC0 / 64 = 1) ∧
    rawExp 0xFFFF = 255 ∧ rawMant 0xFFFF ≠ 0 := by decide

theorem witness_ZeroGivesOne : start.tableLoaded = true ∧
    (0x0000#16 = 0x0000#16 ∨ 0x0000#16 = 0x8000#16) ∧ (0x8000#16 = 0x0000#16 ∨ 0x8000#16 = 0x8000#16) := by
  decide

theorem witness_InfinitiesGiveTheirLimits : start.tableLoaded = true := by decide

/-- The last word below `POS_E_ONE`, the first and last placeholder, and the first word at `POS_E_INF`. -/
theorem witness_PositiveFiniteArgumentsGiveConstants :
    start.tableLoaded = true ∧ start.cfg.params = Params.reference ∧
      [0x3B7F#16, 0x3B80#16, 0x42FF#16, 0x4300#16, 0x7F7F#16].all (fun x =>
        decide (rawSign x = 0 ∧ rawExp x ≠ 255 ∧ x ≠ 0x0000#16)) = true ∧
      rawE 0x3B7F < start.cfg.params.posEOne ∧
      (start.cfg.params.posEOne ≤ rawE 0x3B80 ∧ rawE 0x3B80 < start.cfg.params.posEInf) ∧
      (start.cfg.params.posEOne ≤ rawE 0x42FF ∧ rawE 0x42FF < start.cfg.params.posEInf ∧ rawE 0x42FF ≤ 6) ∧
      start.cfg.params.posEOne ≤ rawE 0x4300 ∧ start.cfg.params.posEInf ≤ rawE 0x4300 ∧ 7 ≤ rawE 0x4300 := by
  decide

theorem witness_DenormalsGiveOne : start.tableLoaded = true ∧
    (rawExp 0x0001 = 0 ∧ rawMant 0x0001 ≠ 0 ∧ (rawSign 0x0001 = 1 ∨ -126 < start.cfg.params.posEOne)) ∧
    rawExp 0x807F = 0 ∧ rawMant 0x807F ≠ 0 ∧ (rawSign 0x807F = 1 ∨ -126 < start.cfg.params.posEOne) := by
  decide

/-- The last word below the window and the first above it. -/
theorem witness_NegativeArgumentsOutsideTheWindow :
    start.tableLoaded = true ∧ start.cfg.params = Params.reference ∧
      (rawSign 0xBAFF = 1 ∧ rawExp 0xBAFF ≠ 255 ∧ 0xBAFF#16 ≠ 0x8000#16 ∧
        rawE 0xBAFF < start.cfg.params.negEMin ∧ rawE 0xBAFF ≤ -10) ∧
      rawSign 0xC380 = 1 ∧ rawExp 0xC380 ≠ 255 ∧ 0xC380#16 ≠ 0x8000#16 ∧
        start.cfg.params.negEMax < rawE 0xC380 ∧ 8 ≤ rawE 0xC380 := by decide

theorem witness_WindowArgumentsRunTheDatapath : start.tableLoaded = true ∧
    [0xBB00#16, 0xC37F#16].all (fun x => decide (rawSign x = 1 ∧ rawExp x ≠ 255 ∧ x ≠ 0x8000#16 ∧
      start.cfg.params.negEMin ≤ rawE x ∧ rawE x ≤ start.cfg.params.negEMax)) = true := by decide

/-- A NaN with a negative sign, the one response whose sign bit is 1. -/
theorem witness_ResponsesAreOfTheStatedForms : rawSign (respond fixture true 0xFF81) = 1 := by decide

theorem witness_UnbiasedExponentByClass :
    (1 ≤ rawExp 0x0080 ∧ rawExp 0x0080 ≤ 254) ∧ (1 ≤ rawExp 0x7F7F ∧ rawExp 0x7F7F ≤ 254) ∧
      1 ≤ rawExp 0x7F80 ∧ (rawExp 0x8001 = 0 ∧ rawMant 0x8001 ≠ 0) ∧
      rawExp 0x8000 = 0 ∧ rawMant 0x8000 = 0 := by decide

theorem witness_RecomposeInvertsDecompose :
    [0x0000#16, 0x0001#16, 0x0080#16, 0x7F7F#16, 0x7F80#16].all (fun w =>
      decide (rawSign w = 0 ∧ ¬ (rawExp w = 255 ∧ rawMant w ≠ 0))) = true := by decide

theorem witness_RangeReductionIsExact :
    InWindow fixture.params 0xBB00 ∧ InWindow fixture.params 0xC37F :=
  ⟨inWindow_fixture_low, inWindow_fixture_high⟩

theorem witness_RangeReducerRanges :
    (InWindow fixture.params 0xBB00 ∧ InWindow fixture.params 0xC37F) ∧ InWindow Params.reference 0xC37F :=
  ⟨⟨inWindow_fixture_low, inWindow_fixture_high⟩, inWindow_fixture_high⟩

/-- The ends of the fractions, and the index of entry 0. -/
theorem witness_EvaluatorReadsTheMirroredEntry :
    (0 < 2 ^ fracW fixture.params ∧ 0xFFFFFFFF < 2 ^ fracW fixture.params) ∧
      0 < 2 ^ fixture.params.lutAddrW ∧ 63 < 2 ^ fixture.params.lutAddrW := by decide

theorem witness_AdmittedLinesStayPositive : 0xFFFFFFFF < 2 ^ fracW fixture.params := by decide

theorem witness_NormalizationIsExact : 0xFFFFFFFF < 2 ^ fracW fixture.params := by decide

/-- V4 of 95_test_vectors.md section 6. -/
theorem witness_RnePackRoundsToNearestEven :
    Params.sound Params.reference = true ∧ 2 ^ polyF Params.reference ≤ 0x201FFFFFFFFFF ∧
      0x201FFFFFFFFFF < 2 ^ (polyF Params.reference + 1) ∧
      (rnePack Params.reference 0x201FFFFFFFFFF (-1)).cls ≠ .inf := by decide

/-- V16, V13, V12, V4, V5 and V17 of 95_test_vectors.md section 6: zero, a subnormal, a promotion, a plain
normal, a carry-out and an overflow. -/
theorem witness_RnePackClassifiesItsResult :
    (Params.sound Params.reference = true ∧ 2 ^ polyF Params.reference ≤ 0x2000000000000 ∧
        0x3FFFFFFFFFFFF < 2 ^ (polyF Params.reference + 1)) ∧
      roundedKept Params.reference 0x3FFFFFFFFFFFF (-300) = 0 ∧
      roundedKept Params.reference 0x2000000000000 (-133) = 1 ∧
      roundedKept Params.reference 0x3FFFFFFFFFFFF (-127) = 128 ∧
      roundedKept Params.reference 0x201FFFFFFFFFF (-1) = 128 ∧
      roundedKept Params.reference 0x3FFFFFFFFFFFF (-2) = 256 ∧
      roundedKept Params.reference 0x3FFFFFFFFFFFF 127 = 256 := by decide

theorem witness_WindowResponseIsCorrectlyRounded :
    InWindow fixture.params 0xBB00 ∧ InWindow fixture.params 0xC37F :=
  ⟨inWindow_fixture_low, inWindow_fixture_high⟩

theorem witness_DatapathResultsAreAtMostOne :
    InWindow fixture.params 0xBB00 ∧ InWindow fixture.params 0xC37F :=
  ⟨inWindow_fixture_low, inWindow_fixture_high⟩

theorem witness_WorkingValuesFitTheirWidths :
    InWindow fixture.params 0xBB00 ∧ InWindow fixture.params 0xC37F :=
  ⟨inWindow_fixture_low, inWindow_fixture_high⟩

theorem witness_NaturalModeUnderflowsFromMinus93 :
    start.tableLoaded = true ∧ start.cfg.params = Params.reference ∧
      (0xC2BA ≤ (0xC2BA#16).toNat ∧ (0xC2BA#16).toNat ≤ 0xC37F) ∧
      0xC2BA ≤ (0xC37F#16).toNat ∧ (0xC37F#16).toNat ≤ 0xC37F := by decide

theorem witness_MinusOneGivesHalfForARoundedIntercept :
    start.tableLoaded = true ∧ start.cfg.params = Params.reference ∧
      start.cfg.table[63]? = some 0xFFFFB07D := by decide

theorem witness_SpecialRowsServeBothModes :
    ¬ InWindow fixture.params 0xBAFF ∧ ¬ InWindow fixture.params 0xC380 := by unfold InWindow; decide

theorem witness_EveryStepKeepsTheInvariant :
    (State.powerUp registered).Inv ∧ ∃ t, step (State.powerUp registered) = .next t :=
  ⟨⟨by decide, by decide, by decide, by decide⟩, _, rfl⟩

/-- A state that holds a response already. -/
theorem witness_EveryStepKeepsResponsesInForm :
    inFlight.tableLoaded = true ∧ inFlight.ResponsesInForm ∧ ∃ t, step inFlight = .next t := by
  refine ⟨by decide, fun y hy => ?_, _, rfl⟩
  have h : y = 0x3F80#16 := by simpa [State.outstanding, inFlight, State.powerUp] using hy
  subst h
  exact .inr (.inr (.inr (by decide)))

theorem witness_NoStepChangesTheConfiguration :
    (∃ t, step start = .next t) ∧ start.tableLoaded = true := ⟨⟨_, rfl⟩, by decide⟩

theorem witness_RequestsChangeOnlyPortsAndResponses :
    (∃ t, exec (.exp2 0xBF80) start = .next t) ∧ (∃ t, exec (.expE 0xBF80) start = .next t) ∧
      start.tableLoaded = true ∧ start.pipe = [] := ⟨⟨_, rfl⟩, ⟨_, rfl⟩, by decide, by decide⟩

theorem witness_OneResponsePerRequestInOrder :
    start.tableLoaded = true ∧ (∃ t, step (startWith (.request 0x1BF80)) = .next t) ∧
      (startWith (.request 0x1BF80)).events = .request 0x1BF80 :: [] ∧
      ∀ w rest, (startWith .idle).events ≠ .request w :: rest := by
  refine ⟨by decide, ⟨_, rfl⟩, by decide, fun w rest => ?_⟩
  simp [startWith]

theorem witness_ResponseComesLatencyCyclesLater :
    let s : State := { inFlight with events := [.request 0x0BF80, .changing 0x1C000] }
    s.tableLoaded = true ∧ s.pipe.length = s.cfg.params.latency ∧
      s.events = .request 0x0BF80 :: [.changing 0x1C000] := by decide

theorem witness_RequestStreamIsAnsweredInOrder :
    inFlight.tableLoaded = true ∧ inFlight.pipe.length = inFlight.cfg.params.latency := by decide

/-- Two states that differ in what they were asked before. -/
theorem witness_ResponseDependsOnlyOnRequestAndTable :
    let t : State := { start with base2 := true, xRaw := 0xC000, responses := [0x3E80], position := 1 }
    start.cfg = t.cfg ∧ start.tableLoaded = true ∧ t.tableLoaded = true ∧ start ≠ t := by
  refine ⟨rfl, rfl, rfl, fun h => ?_⟩
  have := congrArg State.position h
  simp [start, State.powerUp] at this

end Sys2Proof.Machine.Tests
end

/-! The response of an instruction as a function of the request and the configuration
(10_state.md rule R28). -/

namespace Sys2Proof.Machine

/-- An instruction has exactly one response in every state, the one its request is given. -/
theorem answers_iff (i : Instr) (s : State) (y : Word) :
    Answers i s y ↔ y = responseGiven s i.base2 i.operand := by
  obtain ⟨u, hexec, hu⟩ := exec_next i s
  have hout : u.outstanding = s.outstanding := by rw [hu]; rfl
  have hpipe : u.pipe = s.pipe := by rw [hu]; rfl
  constructor
  · rintro ⟨t, ht, hty, -⟩
    obtain rfl : u.cycle (some (responseGiven s i.base2 i.operand)) = t := by
      rw [hexec] at ht; exact Host.Outcome.next.inj ht
    rw [cycle_outstanding, hout] at hty
    simpa using hty.symm
  · rintro rfl
    refine ⟨_, hexec, ?_, fun hs => cycle_yRaw_combinational _ u (hpipe.trans hs)⟩
    rw [cycle_outstanding, hout, Option.toList_some]

/-- Once the table is loaded, the one response is the dispatcher's (44_dispatcher.md rule R160). -/
theorem answers_iff_of_loaded (i : Instr) (s : State) (y : Word) (h : s.tableLoaded = true) :
    Answers i s y ↔ y = respond s.cfg i.base2 i.operand := by
  rw [answers_iff, responseGiven, if_pos h]

/-- Settles O48: both states have the dispatcher's response, which reads nothing but the request and the
configuration they share. -/
theorem responseDependsOnlyOnRequestAndTable : Obligations.ResponseDependsOnlyOnRequestAndTable := by
  intro i s t hcfg hs ht
  have answers_s (z : Word) := answers_iff_of_loaded i s z hs
  have answers_t (z : Word) : Answers i t z ↔ z = respond s.cfg i.base2 i.operand := by
    rw [answers_iff_of_loaded i t z ht, hcfg]
  exact ⟨respond s.cfg i.base2 i.operand, (answers_s _).mpr rfl, (answers_t _).mpr rfl,
    fun z => ⟨(answers_s z).mp, (answers_t z).mp⟩⟩

end Sys2Proof.Machine

/-! The entry that the evaluator reads for a fraction (20_memory.md rules R41 and R42, 42_lut_poly_evaluator.md
rules R121 and R130). -/

namespace Sys2Proof.Machine

theorem entrySlope_eq_mod (p : Params) (hw : 1 ≤ p.wCoeff) (e : Nat) :
    entrySlope p e = e % 2 ^ p.wCoeff :=
  bits_low e p.wCoeff hw

theorem entryIntercept_eq_div (p : Params) (hw : 1 ≤ p.wCoeff) (e : Nat) (he : e < 2 ^ (2 * p.wCoeff)) :
    entryIntercept p e = e / 2 ^ p.wCoeff :=
  bits_top e (2 * p.wCoeff) p.wCoeff he (by omega) (by omega)

/-- At every index of its address map the ROM answers the lower and the upper half of the entry there. -/
theorem rom_of_lt_lutSize (c : Configuration) (j : Nat) (hj : j < lutSize c.params) :
    ∃ e, c.table[j]? = some e ∧
      rom c.params c.table j = some (e % 2 ^ c.params.wCoeff, e / 2 ^ c.params.wCoeff) := by
  obtain ⟨-, -, hw, -⟩ := (sound_iff c.params).mp c.sound
  obtain ⟨e, hget, hwidth, -⟩ := entry_of_admitted c.params c.table c.admitted j hj
  refine ⟨e, hget, ?_⟩
  rw [rom, hget, Option.map_some, entrySlope_eq_mod _ hw, entryIntercept_eq_div _ hw _ hwidth]

/-- Entry `j` is read exactly on its segment: the segment's bounds, divided by its length, say
`idx = LUT_SIZE - 1 - j`. -/
theorem mirroredIndex_eq_iff_mem_segment (p : Params) (h : Params.sound p = true) (frac : Nat)
    (hf : frac < 2 ^ fracW p) (j : Nat) (hj : j < lutSize p) :
    mirroredIndex p frac = j ↔
      (lutSize p - 1 - j) * 2 ^ (fracW p - p.lutAddrW) ≤ frac ∧
        frac < (lutSize p - j) * 2 ^ (fracW p - p.lutAddrW) := by
  obtain ⟨hidx, hlt⟩ := lutIndex_eq p h frac hf
  have hseg : 0 < 2 ^ (fracW p - p.lutAddrW) := by positivity
  rw [← Nat.le_div_iff_mul_le hseg, ← Nat.div_lt_iff_lt_mul hseg, ← hidx, mirroredIndex]
  omega

/-- Settles O25: the index is the top bits of the fraction, an admitted table has an entry at its mirror,
and that entry is read exactly on its segment. -/
theorem evaluatorReadsTheMirroredEntry : Obligations.EvaluatorReadsTheMirroredEntry := by
  intro c frac hf
  obtain ⟨hidx, -⟩ := lutIndex_eq c.params c.sound frac hf
  have hmirror := mirroredIndex_lt c.params frac
  refine ⟨hidx, ?_, hmirror, rom_of_lt_lutSize c _ hmirror,
    mirroredIndex_eq_iff_mem_segment c.params c.sound frac hf⟩
  rw [mirroredIndex, hidx, lutSize]

end Sys2Proof.Machine

/-! The fields of a request word as plain arithmetic on its number (30_encoding.md rules R61 and R64). -/

namespace Sys2Proof

theorem ReqWord.mode_eq_decide (w : ReqWord) : w.mode = decide (w.toNat / 2 ^ 16 = 1) := by
  have hw := w.isLt
  have hbit : w.toNat / 2 ^ 16 % 2 = w.toNat / 2 ^ 16 := by omega
  rw [ReqWord.mode, ← BitVec.testBit_toNat, Nat.testBit_eq_decide_div_mod_eq, hbit]

theorem ReqWord.operand_eq_ofNat_mod (w : ReqWord) :
    w.operand = BitVec.ofNat 16 (w.toNat % 2 ^ 16) := by
  apply BitVec.eq_of_toNat_eq
  simp [ReqWord.operand]

theorem decodeWord_of_mode (w : ReqWord) (h : w.mode = true) :
    decodeWord w = .exp2 w.operand :=
  if_pos h

theorem decodeWord_of_not_mode (w : ReqWord) (h : ¬ w.mode = true) :
    decodeWord w = .expE w.operand :=
  if_neg h

/-- Settles O2: the decoder branches on the mode bit, which is the quotient by `2 ^ 16`, and hands on the
operand, which is the remainder. -/
theorem modeBitSelectsTheOperation : Obligations.ModeBitSelectsTheOperation := by
  intro w
  rw [← ReqWord.operand_eq_ofNat_mod]
  constructor
  · intro h
    exact decodeWord_of_mode w (by rw [ReqWord.mode_eq_decide, h]; rfl)
  · intro h
    exact decodeWord_of_not_mode w (by rw [ReqWord.mode_eq_decide, h]; decide)

end Sys2Proof

/-! The sign and the form of a response (30_encoding.md rule R71). -/

namespace Sys2Proof.Machine

theorem rawSign_eq_one_iff (w : Word) : rawSign w = 1 ↔ signField w = true := by
  have hlt := w.isLt
  rw [signField_iff, rawSign]
  omega

/-- A word with a clear sign bit is of a stated form, whatever its class: the classes of 30_encoding.md rule
R63 leave no other word. -/
theorem isResponse_of_signField_eq_false (y : Word) (h : signField y = false) : IsResponse y := by
  have hlt := (signField_eq_false_iff y).mp h
  by_cases hmax : y.toNat / 128 % 256 = 255
  · by_cases hmant : y.toNat % 128 = 0
    · exact .inr (.inl (BitVec.eq_of_toNat_eq (show y.toNat = 0x7F80 by omega)))
    · exact .inl ((isNaN_iff y).mpr ⟨hmax, hmant⟩)
  · by_cases hmin : y.toNat / 128 % 256 = 0
    · by_cases hmant : y.toNat % 128 = 0
      · exact .inr (.inr (.inl (BitVec.eq_of_toNat_eq (show y.toNat = 0 by omega))))
      · exact .inr (.inr (.inr ⟨h, .inr ((isDenormal_iff y).mpr ⟨hmin, hmant⟩)⟩))
    · exact .inr (.inr (.inr ⟨h, .inl ((isNormal_iff y).mpr ⟨hmin, hmax⟩)⟩))

/-! What setting the quiet bit of a word does to its fields (44_dispatcher.md rule R161). -/

@[simp] theorem signField_or_quietBit (x : Word) : signField (x ||| quietBit) = signField x := by
  simp [signField, quietBit]

@[simp] theorem expField_or_quietBit (x : Word) : expField (x ||| quietBit) = expField x := by
  have hquiet : expField quietBit = 0#8 := by decide
  calc expField (x ||| quietBit) = expField x ||| expField quietBit := BitVec.extractLsb'_or
    _ = expField x := by rw [hquiet, BitVec.or_zero]

theorem mantField_or_quietBit_ne_zero (x : Word) : mantField (x ||| quietBit) ≠ 0#7 := by
  intro h
  have hbit : (mantField (x ||| quietBit)).getLsbD 6 = true := by simp [mantField, quietBit]
  rw [h] at hbit
  exact absurd hbit (by decide)

theorem isNaN_or_quietBit (x : Word) (h : (classify x).isNaN = true) :
    (classify (x ||| quietBit)).isNaN = true := by
  have hexp : expField x = 0xFF#8 := (expField_eq_iff x 255 (by omega)).mpr ((isNaN_iff x).mp h).1
  simp [classify, hexp, mantField_or_quietBit_ne_zero]

/-! The sign of the constants and of a recomposed word (40_float_codec.md rules R85 and R86). -/

theorem signField_oneWord : signField oneWord = false := by decide

theorem signField_zeroWord : signField zeroWord = false := by decide

theorem signField_infWord : signField infWord = false := by decide

theorem signField_zero_append (e : BitVec 8) (m : BitVec 7) : signField (0#1 ++ e ++ m) = false := by
  simp only [signField, BitVec.getLsbD_append]
  rfl

/-- Recomposition always writes a sign bit of 0 (40_float_codec.md rule R85). -/
theorem signField_floatReco (r : Rounded) : signField (floatReco r) = false := by
  obtain ⟨cls, e, kept⟩ := r
  cases cls with
  | zero => exact signField_zeroWord
  | inf => exact signField_infWord
  | subnormal | normal => exact signField_zero_append _ _

/-! The response row by row. -/

/-- NaN operands are row 1, and no later row of the table answers as it does. -/
theorem selectRow_eq_nan_iff (p : Params) (d : DecomposedFloat) :
    selectRow p d = .nan ↔ d.status.isNaN = true := by
  constructor
  · intro hrow
    by_contra h
    rw [selectRow, if_neg h] at hrow
    split_ifs at hrow
  · intro h
    rw [selectRow, if_pos h]

theorem respond_of_isNaN (c : Configuration) (b : Bool) (x : Word) (h : (classify x).isNaN = true) :
    respond c b x = x ||| quietBit := by
  rw [respond, (selectRow_eq_nan_iff c.params (decompose x)).mpr h]

/-- The constants of the dispatcher and the words of the datapath are positive, so only the NaN row can answer
with a sign. -/
theorem signField_respond_of_not_isNaN (c : Configuration) (b : Bool) (x : Word)
    (h : ¬ (classify x).isNaN = true) : signField (respond c b x) = false := by
  unfold respond
  cases hrow : selectRow c.params (decompose x) with
  | nan => exact absurd ((selectRow_eq_nan_iff _ _).mp hrow) h
  | zero | posSmall | posPlaceholder | negSmall => exact signField_oneWord
  | posInf | posLarge => exact signField_infWord
  | negInf | negLarge => exact signField_zeroWord
  | window => exact signField_floatReco _

/-- Settles O19: the response to a NaN is a NaN of the same sign, and every other response has a clear sign
bit. -/
theorem responsesAreOfTheStatedForms : Obligations.ResponsesAreOfTheStatedForms := by
  intro c b x
  rw [rawSign_eq_one_iff, rawSign_eq_one_iff]
  by_cases h : (classify x).isNaN = true
  · rw [respond_of_isNaN c b x h, signField_or_quietBit]
    have hnan := isNaN_or_quietBit x h
    obtain ⟨hexp, hmant⟩ := (isNaN_iff _).mp hnan
    exact ⟨.inl hnan, fun hsign => ⟨hexp, hmant, hsign, (isNaN_iff x).mp h⟩⟩
  · have hpos := signField_respond_of_not_isNaN c b x h
    exact ⟨isResponse_of_signField_eq_false _ hpos, by simp [hpos]⟩

end Sys2Proof.Machine

/-! The float codec: the five classes of a word, its unbiased exponent, and recomposition as the inverse of
decomposition (40_float_codec.md rules R81, R82, R83 and R87). -/

namespace Sys2Proof.Machine

/-- A word is of exactly one class: all ones, all zeros and the rest part the exponents, and the mantissa parts
each of the first two again. -/
theorem classify_flags_sum (w : Word) :
    (classify w).isNaN.toNat + (classify w).isInf.toNat + (classify w).isZero.toNat +
      (classify w).isDenormal.toNat + (classify w).isNormal.toNat = 1 := by
  by_cases hmax : expField w = 0xFF#8
  · cases hmant : mantField w == 0#7 <;> simp [classify, Status.isNormal, bne, hmax, hmant]
  have hmax' : (expField w == 0xFF#8) = false := beq_eq_false_iff_ne.mpr hmax
  by_cases hmin : expField w = 0x00#8
  · cases hmant : mantField w == 0#7 <;> simp [classify, Status.isNormal, bne, hmin, hmant]
  have hmin' : (expField w == 0x00#8) = false := beq_eq_false_iff_ne.mpr hmin
  simp [classify, Status.isNormal, hmax', hmin']

/-- Settles O20: the flags by the class table, the hidden bit by what the table leaves over. -/
theorem statusFlagsClassifyEveryWord : Obligations.StatusFlagsClassifyEveryWord := by
  intro w
  have hhidden : (decompose w).hiddenBit = true ↔ 1 ≤ rawExp w ∧ rawExp w ≤ 254 := by
    rw [decompose_hiddenBit, isNormal_iff, rawExp]
    omega
  exact ⟨isNaN_iff w, isInf_iff w, isZero_iff w, isDenormal_iff w, hhidden, classify_flags_sum w⟩

/-! The unbiased exponent. -/

theorem decompose_exponent_of_isDenormal (w : Word) (h : (classify w).isDenormal = true) :
    (decompose w).unbiasedExponent = -126 := by
  rw [decompose_exponent, if_pos ((isDenormal_iff w).mp h)]

theorem decompose_exponent_of_not_isDenormal (w : Word) (h : ¬ (classify w).isDenormal = true) :
    (decompose w).unbiasedExponent = ((w.toNat / 128 % 256 : Nat) : Int) - 127 := by
  rw [decompose_exponent, if_neg (mt (isDenormal_iff w).mpr h)]

/-- Settles O21: only a denormal departs from `ef - 127`, and a zero has `ef = 0`. -/
theorem unbiasedExponentByClass : Obligations.UnbiasedExponentByClass := by
  intro w
  have hbiased (h : 1 ≤ rawExp w) : (decompose w).unbiasedExponent = (rawExp w : Int) - 127 :=
    decompose_exponent_of_not_isDenormal w fun hd =>
      Nat.one_le_iff_ne_zero.mp h ((isDenormal_iff w).mp hd).1
  refine ⟨hbiased, fun hlow hhigh => ?_, fun hexp hmant => ?_,
    fun (hexp : w.toNat / 128 % 256 = 0) hmant => ?_⟩
  · rw [hbiased hlow]
    omega
  · exact decompose_exponent_of_isDenormal w ((isDenormal_iff w).mpr ⟨hexp, hmant⟩)
  · rw [decompose_exponent_of_not_isDenormal w fun hd => ((isDenormal_iff w).mp hd).2 hmant, hexp]
    rfl

/-! Recomposition of the fields of a positive word, class by class. -/

theorem rawSign_eq_zero_iff (w : Word) : rawSign w = 0 ↔ w.toNat < 32768 := by
  rw [rawSign]
  omega

/-- A denormal has no hidden bit in its significand. -/
theorem significand_of_isDenormal (w : Word) (h : (classify w).isDenormal = true) :
    significand (decompose w) = w.toNat % 128 := by
  have hhidden : (classify w).isNormal = false := by simp [Status.isNormal, h]
  simp [significand, hhidden, mantField_toNat]

theorem eq_zeroWord_of_isZero (w : Word) (hsign : w.toNat < 32768) (h : (classify w).isZero = true) :
    w = 0x0000#16 := by
  obtain ⟨hexp, hmant⟩ := (isZero_iff w).mp h
  exact BitVec.eq_of_toNat_eq (show w.toNat = 0 by omega)

theorem eq_infWord_of_isInf (w : Word) (hsign : w.toNat < 32768) (h : (classify w).isInf = true) :
    w = 0x7F80#16 := by
  obtain ⟨hexp, hmant⟩ := (isInf_iff w).mp h
  exact BitVec.eq_of_toNat_eq (show w.toNat = 0x7F80 by omega)

theorem floatReco_of_isDenormal (w : Word) (hsign : w.toNat < 32768)
    (h : (classify w).isDenormal = true) (e : Int) :
    floatReco { cls := .subnormal, finalExp := e, kept := significand (decompose w) } = w := by
  obtain ⟨hexp, -⟩ := (isDenormal_iff w).mp h
  apply BitVec.eq_of_toNat_eq
  rw [significand_of_isDenormal w h, floatReco_subnormal _ rfl (by dsimp only; omega)]
  dsimp only
  omega

theorem floatReco_of_isNormal (w : Word) (hsign : w.toNat < 32768) (h : (classify w).isNormal = true) :
    floatReco
      { cls := .normal, finalExp := (decompose w).unbiasedExponent,
        kept := significand (decompose w) } = w := by
  obtain ⟨hmin, hmax⟩ := (isNormal_iff w).mp h
  have hnot : ¬ (classify w).isDenormal = true := fun hd => hmin ((isDenormal_iff w).mp hd).1
  apply BitVec.eq_of_toNat_eq
  rw [decompose_exponent_of_not_isDenormal w hnot, significand_normal w h,
    floatReco_normal _ rfl (by dsimp only; omega) (by dsimp only; omega)]
  dsimp only
  omega

/-- Settles O22: one class at a time; the word that is neither NaN nor of the three named classes is normal. -/
theorem recomposeInvertsDecompose : Obligations.RecomposeInvertsDecompose := by
  intro w hraw hnan
  have hsign : w.toNat < 32768 := (rawSign_eq_zero_iff w).mp hraw
  rw [decompose_status]
  by_cases hzero : (classify w).isZero = true
  · rw [if_pos hzero, floatReco_zero _ rfl, eq_zeroWord_of_isZero w hsign hzero]
  rw [if_neg hzero]
  by_cases hinf : (classify w).isInf = true
  · rw [if_pos hinf, floatReco_inf _ rfl, eq_infWord_of_isInf w hsign hinf]
  rw [if_neg hinf]
  by_cases hdenormal : (classify w).isDenormal = true
  · rw [if_pos hdenormal, floatReco_of_isDenormal w hsign hdenormal]
  rw [if_neg hdenormal]
  have hnormal : (classify w).isNormal = true := by
    simp [Status.isNormal, mt (isNaN_iff w).mp hnan, hzero, hinf, hdenormal]
  exact floatReco_of_isNormal w hsign hnormal

end Sys2Proof.Machine

/-! The range reducer: alignment and split lose nothing (41_range_reducer.md rule R104), and the ranges of their
results (rule R106). -/

namespace Sys2Proof.Machine

open Sys2Proof.Target

@[simp] theorem multiplier_true (p : Params) : multiplier p true = 2 ^ p.fLog2e := by
  simp [multiplier, shl]

@[simp] theorem multiplier_false (p : Params) : multiplier p false = p.log2eFx := rfl

theorem aligned_eq_mul (p : Params) (d : DecomposedFloat) (b : Bool) :
    aligned p d b = significand d * multiplier p b * 2 ^ (d.unbiasedExponent - p.negEMin).toNat := rfl

theorem fLog2e_le_fracW (p : Params) (h : Params.sound p = true) : p.fLog2e ≤ fracW p := by
  have hfrac := fracW_cast p h
  obtain ⟨-, -, -, -, -, ⟨hneg, -⟩, -⟩ := (sound_iff p).mp h
  omega

/-- Below the multiplier's fractional bits there is room for the mantissa at the widest right shift. -/
theorem fracW_sub_fLog2e_cast (p : Params) (h : Params.sound p = true) :
    ((fracW p - p.fLog2e : Nat) : Int) = 7 - p.negEMin := by
  rw [Nat.cast_sub (fLog2e_le_fracW p h), fracW_cast p h]
  ring

/-! Exactness. -/

theorem magnitude_nonneg (d : DecomposedFloat) : 0 ≤ magnitude d := by
  unfold magnitude
  positivity

theorem abs_wordValue (x : Word) : |wordValue x| = magnitude (decompose x) := by
  have hnonneg := abs_of_nonneg (magnitude_nonneg (decompose x))
  unfold wordValue
  split
  · rw [abs_neg, hnonneg]
  · exact hnonneg

/-- The alignment is a left shift, since no exponent of the window is below `NEG_E_MIN`. -/
theorem aligned_eq_scaled_magnitude (p : Params) (h : Params.sound p = true) (x : Word) (b : Bool)
    (hx : InWindow p x) :
    (aligned p (decompose x) b : ℚ) =
      magnitude (decompose x) * multiplier p b * 2 ^ (fracW p - p.fLog2e) := by
  have hscale := fracW_sub_fLog2e_cast p h
  obtain ⟨-, -, hlow, -⟩ := hx
  have hexp : (decompose x).unbiasedExponent + ((fracW p - p.fLog2e : Nat) : Int) =
      (mW : Int) + (((decompose x).unbiasedExponent - p.negEMin).toNat : Int) := by
    simp only [mW]
    omega
  have hpow : (2 : ℚ) ^ (decompose x).unbiasedExponent * 2 ^ (fracW p - p.fLog2e) =
      2 ^ mW * 2 ^ ((decompose x).unbiasedExponent - p.negEMin).toNat := by
    simpa only [zpow_add₀ (two_ne_zero (α := ℚ)), zpow_natCast] using congrArg ((2 : ℚ) ^ ·) hexp
  rw [aligned_eq_mul, magnitude]
  push_cast
  calc (significand (decompose x) : ℚ) * multiplier p b *
        2 ^ ((decompose x).unbiasedExponent - p.negEMin).toNat
      = significand (decompose x) / 2 ^ mW * multiplier p b *
          (2 ^ mW * 2 ^ ((decompose x).unbiasedExponent - p.negEMin).toNat) := by field_simp
    _ = significand (decompose x) / 2 ^ mW * 2 ^ (decompose x).unbiasedExponent * multiplier p b *
          2 ^ (fracW p - p.fLog2e) := by rw [← hpow]; ring

/-- The split is a quotient and its remainder, put together again. -/
theorem bias_add_frac (p : Params) (h : Params.sound p = true) (x : Word) (b : Bool) (hx : InWindow p x) :
    ((rangeReduce p (decompose x) b).bias : ℚ) + (rangeReduce p (decompose x) b).frac / 2 ^ fracW p =
      aligned p (decompose x) b / 2 ^ fracW p := by
  obtain ⟨hbias, hfrac⟩ := rangeReduce_spec p h x b hx
  have hsplit : ((2 ^ fracW p * (rangeReduce p (decompose x) b).bias +
      (rangeReduce p (decompose x) b).frac : Nat) : ℚ) = aligned p (decompose x) b := by
    rw [hbias, hfrac, Nat.div_add_mod]
  rw [← hsplit]
  push_cast
  field_simp

theorem bias_add_frac_eq_scaled_magnitude (p : Params) (h : Params.sound p = true) (x : Word) (b : Bool)
    (hx : InWindow p x) :
    ((rangeReduce p (decompose x) b).bias : ℚ) + (rangeReduce p (decompose x) b).frac / 2 ^ fracW p =
      magnitude (decompose x) * multiplier p b / 2 ^ p.fLog2e := by
  have hpow : (2 : ℚ) ^ fracW p = 2 ^ p.fLog2e * 2 ^ (fracW p - p.fLog2e) := by
    rw [← pow_add, Nat.add_sub_cancel' (fLog2e_le_fracW p h)]
  rw [bias_add_frac p h x b hx, aligned_eq_scaled_magnitude p h x b hx, hpow,
    mul_div_mul_right _ _ (by positivity)]

/-- Settles O23: the alignment by its shift, the split by division with remainder, and base-2 mode by its
multiplier `2 ^ F_LOG2E`. -/
theorem rangeReductionIsExact : Obligations.RangeReductionIsExact := by
  intro c b x hx
  have hvalue := bias_add_frac_eq_scaled_magnitude c.params c.sound x b hx
  refine ⟨aligned_eq_scaled_magnitude c.params c.sound x b hx, hvalue, ?_⟩
  rintro rfl
  rw [hvalue, abs_wordValue, multiplier_true]
  push_cast
  exact mul_div_cancel_right₀ _ (by positivity)

/-! Ranges. -/

theorem rangeReduce_bias_lt (p : Params) (h : Params.sound p = true) (x : Word) (b : Bool)
    (hx : InWindow p x) : (rangeReduce p (decompose x) b).bias < 2 ^ intW p := by
  rw [(rangeReduce_spec p h x b hx).1, Nat.div_lt_iff_lt_mul (by positivity), ← pow_add]
  exact aligned_lt p h x b hx

/-- The factor `2 ^ F_LOG2E` of the base-2 product outlives the shift and the remainder. -/
theorem two_pow_fLog2e_dvd_frac (p : Params) (h : Params.sound p = true) (x : Word) (hx : InWindow p x) :
    2 ^ p.fLog2e ∣ (rangeReduce p (decompose x) true).frac := by
  rw [(rangeReduce_spec p h x true hx).2, Nat.dvd_mod_iff (pow_dvd_pow 2 (fLog2e_le_fracW p h)),
    aligned_eq_mul, multiplier_true]
  exact (Dvd.intro_left _ rfl).mul_right _

/-- The largest significand at the largest exponent bounds every aligned magnitude of the window. -/
theorem aligned_le (p : Params) (x : Word) (b : Bool) (hx : InWindow p x) :
    aligned p (decompose x) b ≤ 255 * multiplier p b * 2 ^ (p.negEMax - p.negEMin).toNat := by
  obtain ⟨-, -, -, hhigh⟩ := hx
  have hsig : significand (decompose x) ≤ 255 := Nat.le_of_lt_succ (significand_lt x)
  have hshift : ((decompose x).unbiasedExponent - p.negEMin).toNat ≤ (p.negEMax - p.negEMin).toNat := by
    omega
  rw [aligned_eq_mul]
  gcongr
  norm_num

theorem reference_bias_le (x : Word) (b : Bool) (hx : InWindow Params.reference x) :
    (rangeReduce Params.reference (decompose x) b).bias ≤
      255 * multiplier Params.reference b * 2 ^ 16 / 2 ^ 32 := by
  rw [(rangeReduce_spec _ reference_sound x b hx).1]
  exact Nat.div_le_div_right (aligned_le _ x b hx)

/-- Settles O24: the widths by the register of the aligned magnitude, the reference maxima by the window's last
word. -/
theorem rangeReducerRanges : Obligations.RangeReducerRanges := by
  refine ⟨fun c b x hx => ⟨rangeReduce_bias_lt c.params c.sound x b hx,
    rangeReduce_frac_lt c.params c.sound x b hx, ?_⟩,
    fun x hx => ⟨(reference_bias_le x true hx).trans (by decide),
      (reference_bias_le x false hx).trans (by decide)⟩, by decide, by decide⟩
  rintro rfl
  exact Nat.mod_eq_zero_of_dvd (two_pow_fLog2e_dvd_frac c.params c.sound x hx)

end Sys2Proof.Machine

/-! The normalization of a line value: it is exact, and its exponent is in range (42_lut_poly_evaluator.md rules
R126, R127 and R128). -/

namespace Sys2Proof.Machine

@[simp] theorem normalizeLine_mant (p : Params) (res : Nat) :
    (normalizeLine p res).mant = res * 2 ^ (polyF p - msb res) := rfl

@[simp] theorem normalizeLine_polyExp (p : Params) (res : Nat) :
    (normalizeLine p res).polyExp = (msb res : Int) - (accF p : Int) := rfl

theorem accF_le_wCoeff_add_fracW (p : Params) : accF p ≤ p.wCoeff + fracW p :=
  Nat.add_le_add_right (Nat.sub_le _ _) _

/-- The barrel shift is to the left, so it drops no bit, and the exponent takes it back. -/
theorem normalizeLine_value (p : Params) (res : Nat) (hmsb : msb res ≤ polyF p) :
    ((normalizeLine p res).mant : ℚ) / 2 ^ polyF p * (2 : ℚ) ^ (normalizeLine p res).polyExp =
      res / 2 ^ accF p := by
  have hpow : (2 : ℚ) ^ polyF p = 2 ^ (polyF p - msb res) * 2 ^ msb res := by
    rw [← pow_add, Nat.sub_add_cancel hmsb]
  rw [normalizeLine_mant, normalizeLine_polyExp, zpow_sub₀ two_ne_zero, zpow_natCast, zpow_natCast, hpow]
  push_cast
  field_simp

/-- A positive line value below 1 has an exponent from `-ACC_F` to `-1`. -/
theorem normalizeLine_polyExp_bounds (p : Params) (res : Nat) (hpos : 0 < res) (hlt : res < 2 ^ accF p) :
    -(accF p : Int) ≤ (normalizeLine p res).polyExp ∧ (normalizeLine p res).polyExp ≤ -1 := by
  have hmsb : msb res < accF p := msb_lt res _ hpos hlt
  rw [normalizeLine_polyExp]
  omega

/-- Every fraction selects a line whose value there is a positive natural number below `2 ^ ACC_F`, and the
evaluator normalizes that number. -/
theorem polyEval_normalizes (c : Configuration) (frac : Nat) (hf : frac < 2 ^ fracW c.params) :
    ∃ a b res, rom c.params c.table (mirroredIndex c.params frac) = some (a, b) ∧
      lineValue c.params a b frac = ((res : Nat) : Int) ∧ 0 < res ∧ res < 2 ^ accF c.params ∧
      polyEval c.params c.table frac = normalizeLine c.params res := by
  obtain ⟨a, b, hrom, -, -, hpos, hlt⟩ := selected_line c frac hf
  have heval := polyEval_eq c frac a b hrom hpos
  obtain ⟨res, hres⟩ := Int.eq_ofNat_of_zero_le hpos.le
  rw [hres] at hpos hlt heval
  exact ⟨a, b, res, hrom, hres, Int.natCast_pos.mp hpos, Int.ofNat_lt.mp hlt, heval⟩

/-- Settles O27: the selected line value is positive and below 1, and its normalization is exact. -/
theorem normalizationIsExact : Obligations.NormalizationIsExact := by
  intro c frac hf
  obtain ⟨a, b, res, hrom, hline, hpos, hlt, heval⟩ := polyEval_normalizes c frac hf
  have hfits : res < 2 ^ (c.params.wCoeff + fracW c.params) :=
    hlt.trans_le (Nat.pow_le_pow_right two_pos (accF_le_wCoeff_add_fracW c.params))
  obtain ⟨-, -, hmsb, hlow, hhigh⟩ := normalizeLine_spec c.params res hpos hfits
  have hshift : msb res ≤ polyF c.params := by
    rw [polyF_eq]
    omega
  obtain ⟨hexpLow, hexpHigh⟩ := normalizeLine_polyExp_bounds c.params res hpos hlt
  dsimp only
  rw [heval]
  refine ⟨a, b, hrom, hlow, hhigh, ?_, hexpLow, by omega⟩
  rw [hline, Int.cast_natCast]
  exact normalizeLine_value c.params res hshift

end Sys2Proof.Machine

/-! Rounding to nearest, ties to even, and the response as the correctly rounded line value
(43_rounder_normalizer.md rules R142 to R151). -/

namespace Sys2Proof.Machine

open Sys2Proof.Target

/-! Rounding to an integer. -/

/-- `k` is the rational `t` rounded to the nearest integer, an exact tie going to the even one. -/
def IsNearestEvenInt (k : ℤ) (t : ℚ) : Prop :=
  |(k : ℚ) - t| ≤ 1 / 2 ∧ (|(k : ℚ) - t| = 1 / 2 → Even k)

/-- Distinct integers are at least 1 apart, so what is within half of one is at least half from any other. -/
theorem IsNearestEvenInt.half_le_dist_of_ne {k m : ℤ} {t : ℚ} (h : IsNearestEvenInt k t) (hm : m ≠ k) :
    1 / 2 ≤ |(m : ℚ) - t| := by
  have hone : (1 : ℚ) ≤ |(m : ℚ) - k| := by
    exact_mod_cast Int.one_le_abs (sub_ne_zero.mpr hm)
  have htri : |(m : ℚ) - k| ≤ |(m : ℚ) - t| + |(k : ℚ) - t| := by
    rw [abs_sub_comm (k : ℚ) t]
    exact abs_sub_le _ _ _
  have hhalf := h.1
  linarith

theorem IsNearestEvenInt.dist_le {k : ℤ} {t : ℚ} (h : IsNearestEvenInt k t) (m : ℤ) :
    |(k : ℚ) - t| ≤ |(m : ℚ) - t| := by
  by_cases hm : m = k
  · rw [hm]
  · exact h.1.trans (h.half_le_dist_of_ne hm)

theorem IsNearestEvenInt.even_of_tie {k m : ℤ} {t : ℚ} (h : IsNearestEvenInt k t)
    (htie : |(k : ℚ) - t| = |(m : ℚ) - t|) (hm : m ≠ k) : Even k :=
  h.2 (le_antisymm h.1 (htie ▸ h.half_le_dist_of_ne hm))

theorem isNearestEvenInt_of_le_half (q : Nat) (x : ℚ) (hnonneg : 0 ≤ x) (hx : x ≤ 1 / 2)
    (htie : x = 1 / 2 → q % 2 = 0) : IsNearestEvenInt (q : ℤ) (q + x) := by
  have habs : |((q : ℤ) : ℚ) - (q + x)| = x := by
    rw [Int.cast_natCast, sub_add_cancel_left, abs_neg, abs_of_nonneg hnonneg]
  rw [IsNearestEvenInt, habs]
  exact ⟨hx, fun heq => by rw [Int.even_coe_nat, Nat.even_iff, htie heq]⟩

theorem isNearestEvenInt_succ_of_half_le (q : Nat) (x : ℚ) (hone : x ≤ 1) (hx : 1 / 2 ≤ x)
    (htie : x = 1 / 2 → q % 2 = 1) : IsNearestEvenInt ((q + 1 : Nat) : ℤ) (q + x) := by
  have habs : |(((q + 1 : Nat) : ℤ) : ℚ) - (q + x)| = 1 - x := by
    rw [Int.cast_natCast, Nat.cast_add_one, add_sub_add_left_eq_sub, abs_of_nonneg (sub_nonneg.mpr hone)]
  rw [IsNearestEvenInt, habs]
  refine ⟨by linarith, fun heq => ?_⟩
  have hodd := htie (by linarith)
  rw [Int.even_coe_nat, Nat.even_iff]
  omega

/-- Comparing the remainder with half the divisor, and the quotient's parity at the half, rounds a fraction. -/
theorem isNearestEvenInt_div (n D : Nat) (hD : 0 < D) :
    IsNearestEvenInt
      ((n / D + if D < 2 * (n % D) ∨ (2 * (n % D) = D ∧ n / D % 2 = 1) then 1 else 0 : Nat) : ℤ)
      ((n : ℚ) / D) := by
  have hDq : (0 : ℚ) < D := Nat.cast_pos.mpr hD
  have hsplit : (n : ℚ) / D = (n / D : Nat) + ((n % D : Nat) : ℚ) / D := by
    rw [add_div' _ _ _ hDq.ne', div_left_inj' hDq.ne']
    exact_mod_cast (Nat.div_add_mod' n D).symm
  have hlt : ((n % D : Nat) : ℚ) / D < 1 := by
    rw [div_lt_one hDq]
    exact_mod_cast Nat.mod_lt n hD
  have hle : ((n % D : Nat) : ℚ) / D ≤ 1 / 2 ↔ 2 * (n % D) ≤ D := by
    rw [div_le_div_iff₀ hDq two_pos, one_mul, mul_comm]
    exact_mod_cast Iff.rfl
  have hge : 1 / 2 ≤ ((n % D : Nat) : ℚ) / D ↔ D ≤ 2 * (n % D) := by
    rw [div_le_div_iff₀ two_pos hDq, one_mul, mul_comm]
    exact_mod_cast Iff.rfl
  rw [hsplit]
  split_ifs with hup
  · refine isNearestEvenInt_succ_of_half_le _ _ hlt.le (hge.mpr (by omega)) fun heq => ?_
    have hrem := hle.mp heq.le
    omega
  · refine isNearestEvenInt_of_le_half _ _ (by positivity) (hle.mpr (by omega)) fun heq => ?_
    have hrem := hge.mp heq.ge
    omega

theorem roundedKept_isNearestEvenInt (p : Params) (mant : Nat) (e : Int) (hs : 1 ≤ roundShift p e) :
    IsNearestEvenInt (roundedKept p mant e) ((mant : ℚ) / 2 ^ roundShift p e) := by
  rw [roundedKept_eq p mant e hs]
  exact_mod_cast isNearestEvenInt_div mant (2 ^ roundShift p e) (by positivity)

/-! The grid of BF16 values. -/

/-- The distance of neighbouring BF16 values with the exponent `E`. -/
def gridUnit (E : Int) : ℚ := 2 ^ (E - mW)

theorem gridUnit_pos (E : Int) : 0 < gridUnit E := by
  unfold gridUnit
  positivity

theorem gridUnit_eq_pow_mul {E F : Int} (h : E ≤ F) : gridUnit F = 2 ^ (F - E).toNat * gridUnit E := by
  rw [gridUnit, gridUnit, ← zpow_natCast, ← zpow_add₀ two_ne_zero]
  congr 1
  omega

theorem gridUnit_add_one (E : Int) : gridUnit (E + 1) = 2 * gridUnit E := by
  rw [gridUnit_eq_pow_mul (show E ≤ E + 1 by omega), add_sub_cancel_left]
  norm_num

theorem magnitude_eq_mul_gridUnit (d : DecomposedFloat) :
    magnitude d = significand d * gridUnit d.unbiasedExponent := by
  rw [magnitude, gridUnit, zpow_sub₀ two_ne_zero, zpow_natCast]
  ring

theorem wordValue_eq_intCast_mul_gridUnit (w : Word) :
    ∃ n : ℤ, wordValue w = n * gridUnit (decompose w).unbiasedExponent := by
  rw [wordValue, magnitude_eq_mul_gridUnit]
  split
  · exact ⟨-significand (decompose w), by push_cast; ring⟩
  · exact ⟨significand (decompose w), by push_cast; ring⟩

/-- Neither a zero nor a denormal has a hidden bit. -/
theorem significand_of_expField_eq_zero (w : Word) (h : w.toNat / 128 % 256 = 0) :
    significand (decompose w) = w.toNat % 128 := by
  have hhidden : (classify w).isNormal = false := by
    rw [← Bool.not_eq_true, isNormal_iff]
    omega
  simp [significand, hhidden, mantField_toNat]

/-- Zeros and denormals are the multiples of the least positive value: the exponent of a zero is lower, but its
significand is 0. -/
theorem magnitude_of_expField_eq_zero (w : Word) (h : w.toNat / 128 % 256 = 0) :
    magnitude (decompose w) = (w.toNat % 128 : Nat) * gridUnit eMinN := by
  rw [magnitude_eq_mul_gridUnit, significand_of_expField_eq_zero w h]
  by_cases hzero : w.toNat % 128 = 0
  · rw [hzero, Nat.cast_zero, zero_mul, zero_mul]
  · rw [decompose_exponent_of_isDenormal w ((isDenormal_iff w).mpr ⟨h, hzero⟩)]

/-- Only a zero has an exponent below the least normal one. -/
theorem wordValue_eq_zero_of_exponent_lt (w : Word) (h : (decompose w).unbiasedExponent < eMinN) :
    wordValue w = 0 := by
  have hzero : w.toNat / 128 % 256 = 0 ∧ w.toNat % 128 = 0 := by
    rw [decompose_exponent, eMinN] at h
    split at h <;> omega
  rw [← abs_eq_zero, abs_wordValue, magnitude_of_expField_eq_zero w hzero.1, hzero.2, Nat.cast_zero,
    zero_mul]

/-- A word is on the grid of exponent `E`, or its magnitude is below the binade of `E`. -/
theorem wordValue_on_grid_or_small (w : Word) (E : Int) (hE : eMinN ≤ E) :
    (∃ m : ℤ, wordValue w = m * gridUnit E) ∨ eMinN < E ∧ |wordValue w| < 128 * gridUnit E := by
  by_cases hle : E ≤ (decompose w).unbiasedExponent
  · obtain ⟨n, hn⟩ := wordValue_eq_intCast_mul_gridUnit w
    refine .inl ⟨n * 2 ^ ((decompose w).unbiasedExponent - E).toNat, ?_⟩
    rw [hn, gridUnit_eq_pow_mul hle]
    push_cast
    ring
  obtain rfl | hlt := hE.eq_or_lt
  · exact .inl ⟨0, by rw [wordValue_eq_zero_of_exponent_lt w (by omega)]; simp⟩
  refine .inr ⟨hlt, ?_⟩
  have hsig : (significand (decompose w) : ℚ) < 256 := by exact_mod_cast significand_lt w
  have hpos := gridUnit_pos (decompose w).unbiasedExponent
  have hunit : 2 * gridUnit (decompose w).unbiasedExponent ≤ gridUnit E := by
    rw [gridUnit_eq_pow_mul (show (decompose w).unbiasedExponent ≤ E by omega)]
    gcongr
    exact le_self_pow₀ one_le_two (by omega)
  calc |wordValue w| = significand (decompose w) * gridUnit (decompose w).unbiasedExponent := by
        rw [abs_wordValue, magnitude_eq_mul_gridUnit]
    _ < 256 * gridUnit (decompose w).unbiasedExponent := by gcongr
    _ ≤ 128 * gridUnit E := by linarith

/-- Rounding to the grid of the value's own binade rounds over the whole of BF16: the words off that grid are
below the binade, and its lower end is on the grid. -/
theorem isNearestEven_of_grid {y : Word} {E : Int} {k : Nat} {t : ℚ} (hE : eMinN ≤ E)
    (hfin : isFinite y = true) (hy : wordValue y = k * gridUnit E)
    (hlsb : Even k → y.getLsbD 0 = false) (hround : IsNearestEvenInt k t)
    (hbinade : eMinN < E → 128 ≤ t) : IsNearestEven y (t * gridUnit E) := by
  have hpos := gridUnit_pos E
  have hdist (m : ℤ) : |(m : ℚ) * gridUnit E - t * gridUnit E| = |(m : ℚ) - t| * gridUnit E := by
    rw [← sub_mul, abs_mul, abs_of_pos hpos]
  have hydist : |wordValue y - t * gridUnit E| = |((k : ℤ) : ℚ) - t| * gridUnit E := by
    rw [hy, ← hdist, Int.cast_natCast]
  refine ⟨hfin, fun w _ => ?_⟩
  rw [hydist]
  obtain ⟨m, hm⟩ | ⟨hlt, hsmall⟩ := wordValue_on_grid_or_small w E hE
  · rw [hm, hdist, mul_left_inj' hpos.ne']
    refine ⟨mul_le_mul_of_nonneg_right (hround.dist_le m) hpos.le, fun htie hne => hlsb ?_⟩
    have hmk : m ≠ k := by
      rintro rfl
      exact hne (by rw [hy, Int.cast_natCast])
    exact (Int.even_coe_nat k).mp (hround.even_of_tie htie hmk)
  · have hfloor : |((k : ℤ) : ℚ) - t| ≤ t - 128 := by
      calc |((k : ℤ) : ℚ) - t| ≤ |((128 : ℤ) : ℚ) - t| := hround.dist_le 128
        _ = t - 128 := by
          rw [abs_sub_comm, Int.cast_ofNat, abs_of_nonneg (sub_nonneg.mpr (hbinade hlt))]
    have hfar : |((k : ℤ) : ℚ) - t| * gridUnit E < |wordValue w - t * gridUnit E| := by
      calc |((k : ℤ) : ℚ) - t| * gridUnit E ≤ (t - 128) * gridUnit E := by gcongr
        _ < t * gridUnit E - wordValue w := by linarith [le_abs_self (wordValue w)]
        _ ≤ |wordValue w - t * gridUnit E| := by
          rw [abs_sub_comm]
          exact le_abs_self _
    exact ⟨hfar.le, fun htie => absurd htie hfar.ne⟩

/-! The packed word. -/

theorem isFinite_of_toNat_lt (w : Word) (h : w.toNat < 255 * 128) : isFinite w = true := by
  have hnan : (classify w).isNaN = false := by
    rw [← Bool.not_eq_true, isNaN_iff]
    omega
  have hinf : (classify w).isInf = false := by
    rw [← Bool.not_eq_true, isInf_iff]
    omega
  simp [isFinite, hnan, hinf]

theorem getLsbD_zero_of_even (w : Word) (h : Even w.toNat) : w.getLsbD 0 = false := by
  rw [← BitVec.testBit_toNat, Nat.testBit_zero, Nat.even_iff.mp h]
  rfl

/-- The value of a positive finite word, whose significand `k` has a hidden bit unless its exponent is the
least. -/
theorem wordValue_of_toNat_eq_of_lt (w : Word) (E : Int) (k : Nat) (hE : eMinN ≤ E)
    (hnum : w.toNat = (E + 126).toNat * 128 + k) (hfin : w.toNat < 255 * 128) (hk : k < 256)
    (hhidden : eMinN < E → 128 ≤ k) : wordValue w = k * gridUnit E := by
  have hsign : signField w = false := (signField_eq_false_iff w).mpr (by omega)
  simp only [eMinN] at hE hhidden
  rw [wordValue, hsign, if_neg (by decide)]
  by_cases hnormal : 128 ≤ k
  · have hexp := decompose_exponent w
    rw [if_neg (by omega)] at hexp
    rw [magnitude_eq_mul_gridUnit, significand_normal w ((isNormal_iff w).mpr (by omega)), hexp]
    congr <;> omega
  · obtain rfl : E = -126 := by omega
    have hmant : w.toNat % 128 = k := by omega
    rw [magnitude_of_expField_eq_zero w (by omega), hmant]

/-- A significand of 256 is the carry-out: its word is the next power of two. -/
theorem wordValue_of_toNat_eq (w : Word) (E : Int) (k : Nat) (hE : eMinN ≤ E)
    (hnum : w.toNat = (E + 126).toNat * 128 + k) (hfin : w.toNat < 255 * 128) (hk : k ≤ 256)
    (hhidden : eMinN < E → 128 ≤ k) : wordValue w = k * gridUnit E := by
  obtain rfl | hlt := hk.eq_or_lt
  · rw [wordValue_of_toNat_eq_of_lt w (E + 1) 128 (by omega) (by simp only [eMinN] at hE; omega) hfin
      (by omega) (fun _ => le_rfl), gridUnit_add_one]
    push_cast
    ring
  · exact wordValue_of_toNat_eq_of_lt w E k hE hnum hfin hlt hhidden

/-- The exponent of a result before any carry: its own, or the least normal one
(43_rounder_normalizer.md rule R142). -/
def packExp (e : Int) : Int := max e eMinN

theorem eMinN_le_packExp (e : Int) : eMinN ≤ packExp e := le_max_right _ _

theorem roundShift_cast (p : Params) (h : Params.sound p = true) (e : Int) :
    (roundShift p e : Int) = polyF p - mW + (packExp e - e) := by
  obtain ⟨-, -, -, -, -, -, -, hpos, -⟩ := (sound_iff p).mp h
  simp only [roundShift, extraShift, packExp, mW, eMinN] at *
  split <;> omega

theorem one_le_roundShift (p : Params) (h : Params.sound p = true) (e : Int) : 1 ≤ roundShift p e := by
  obtain ⟨-, -, -, -, -, -, -, hpos, -⟩ := (sound_iff p).mp h
  exact hpos.trans (Nat.le_add_right _ _)

/-- In the normal range the hidden bit is kept. -/
theorem hiddenBit_mul_le_mant (p : Params) (h : Params.sound p = true) (mant : Nat) (e : Int)
    (hlow : 2 ^ polyF p ≤ mant) (he : eMinN ≤ e) : 128 * 2 ^ roundShift p e ≤ mant := by
  have hshift := roundShift_cast p h e
  rw [packExp, max_eq_left he] at hshift
  calc 128 * 2 ^ roundShift p e = 2 ^ (mW + roundShift p e) := by rw [pow_add]; rfl
    _ = 2 ^ polyF p := by congr 1; omega
    _ ≤ mant := hlow

/-- A normalized mantissa keeps its top `M_W + 1` bits in the normal range, fewer below it. -/
theorem roundedKept_range (p : Params) (h : Params.sound p = true) (mant : Nat) (e : Int)
    (hlow : 2 ^ polyF p ≤ mant) (hhigh : mant < 2 ^ (polyF p + 1)) :
    (e < eMinN → roundedKept p mant e ≤ 128) ∧
      (eMinN ≤ e → 128 ≤ roundedKept p mant e ∧ roundedKept p mant e ≤ 256) := by
  have hshift := roundShift_cast p h e
  obtain ⟨hfloor, hceil⟩ := roundedKept_bounds p mant e
  have hbelow (j : Nat) (hj : polyF p + 1 ≤ j + roundShift p e) : roundedKept p mant e ≤ 2 ^ j := by
    have hquot : mant / 2 ^ roundShift p e < 2 ^ j := by
      rw [Nat.div_lt_iff_lt_mul (by positivity), ← pow_add]
      exact hhigh.trans_le (Nat.pow_le_pow_right two_pos hj)
    omega
  simp only [packExp, mW, eMinN] at hshift ⊢
  refine ⟨fun he => hbelow 7 (by omega), fun he => ⟨?_, hbelow 8 (by omega)⟩⟩
  exact ((Nat.le_div_iff_mul_le (by positivity)).mpr
    (hiddenBit_mul_le_mant p h mant e hlow he)).trans hfloor

/-- A subnormal-range significand is the number of its word, the promoted one too
(43_rounder_normalizer.md rule R148). -/
theorem toNat_floatReco_packSubnormal (k : Nat) (e : Int) (hk : k ≤ 128) :
    (floatReco (packSubnormal k e)).toNat = k := by
  rw [packSubnormal]
  split_ifs with hzero htop
  · rw [floatReco_zero _ rfl, hzero]
    rfl
  · subst htop
    exact floatReco_normal _ rfl (by decide) (by decide)
  · exact floatReco_subnormal _ rfl (by simp only [mW] at htop; dsimp only; omega)

theorem packNormal_of_lt (k : Nat) (e : Int) (hk : k < 256) :
    packNormal k e = { cls := if e > eMaxN then .inf else .normal, finalExp := e, kept := k } := by
  have hcarry : ¬ k = 2 ^ (mW + 1) := hk.ne
  simp [packNormal, hcarry]

theorem packNormal_carry (e : Int) :
    packNormal 256 e =
      { cls := if e + 1 > eMaxN then .inf else .normal, finalExp := e + 1, kept := 128 } := rfl

/-- A carry-out of the significand carries into the exponent field (43_rounder_normalizer.md rules R146,
R147). -/
theorem toNat_floatReco_packNormal (k : Nat) (e : Int) (he : eMinN ≤ e) (hk : 128 ≤ k ∧ k ≤ 256)
    (hcls : (packNormal k e).cls ≠ .inf) :
    (floatReco (packNormal k e)).toNat = (e + 126).toNat * 128 + k ∧
      (floatReco (packNormal k e)).toNat < 255 * 128 := by
  simp only [eMinN] at he
  obtain ⟨hlow, hhigh⟩ := hk
  obtain rfl | hlt := hhigh.eq_or_lt
  · rw [packNormal_carry] at hcls ⊢
    have hexp : ¬ e + 1 > eMaxN := fun hover => hcls (if_pos hover)
    rw [if_neg hexp]
    simp only [eMaxN] at hexp
    rw [floatReco_normal _ rfl (by dsimp only; omega) (by dsimp only; omega)]
    dsimp only
    omega
  · rw [packNormal_of_lt k e hlt] at hcls ⊢
    have hexp : ¬ e > eMaxN := fun hover => hcls (if_pos hover)
    rw [if_neg hexp]
    simp only [eMaxN] at hexp
    rw [floatReco_normal _ rfl (by dsimp only; omega) ⟨hlow, hlt⟩]
    dsimp only
    omega

/-- A result whose exponent is below the largest cannot overflow, not even by a carry
(43_rounder_normalizer.md rule R147). -/
theorem rnePack_cls_ne_inf (p : Params) (mant : Nat) (e : Int) (he : e < eMaxN) :
    (rnePack p mant e).cls ≠ .inf := by
  rw [rnePack]
  split_ifs with hsub
  · rw [packSubnormal]
    split_ifs <;> simp
  · have hexp : (if roundedKept p mant e = 2 ^ (mW + 1) then e + 1 else e) ≤ eMaxN := by
      split_ifs <;> omega
    simp [packNormal, not_lt.mpr hexp]

/-- The number of a rounded word is linear in the significand: a carry-out and the promotion of a subnormal both
carry into its exponent field. -/
theorem toNat_floatReco_rnePack (p : Params) (h : Params.sound p = true) (mant : Nat) (e : Int)
    (hlow : 2 ^ polyF p ≤ mant) (hhigh : mant < 2 ^ (polyF p + 1)) (hcls : (rnePack p mant e).cls ≠ .inf) :
    (floatReco (rnePack p mant e)).toNat = (packExp e + 126).toNat * 128 + roundedKept p mant e ∧
      (floatReco (rnePack p mant e)).toNat < 255 * 128 := by
  obtain ⟨hsubnormal, hnormal⟩ := roundedKept_range p h mant e hlow hhigh
  by_cases he : e < eMinN
  · rw [rnePack, if_pos he, toNat_floatReco_packSubnormal _ e (hsubnormal he), packExp,
      max_eq_right he.le]
    exact ⟨(zero_add _).symm, (hsubnormal he).trans_lt (by norm_num)⟩
  · rw [rnePack, if_neg he] at hcls ⊢
    rw [packExp, max_eq_left (not_lt.mp he)]
    exact toNat_floatReco_packNormal _ e (not_lt.mp he) (hnormal (not_lt.mp he)) hcls

/-- In units of the grid the exact value is the mantissa at its rounding position. -/
theorem shifted_mant_mul_gridUnit (p : Params) (h : Params.sound p = true) (mant : Nat) (e : Int) :
    (mant : ℚ) / 2 ^ roundShift p e * gridUnit (packExp e) = mant / 2 ^ polyF p * 2 ^ e := by
  have hpow : (2 : ℚ) ^ polyF p * gridUnit (packExp e) = 2 ^ roundShift p e * 2 ^ e := by
    rw [gridUnit, ← zpow_natCast, ← zpow_natCast, ← zpow_add₀ two_ne_zero, ← zpow_add₀ two_ne_zero,
      roundShift_cast p h e]
    congr 1
    ring
  rw [div_mul_eq_mul_div, div_mul_eq_mul_div, div_eq_div_iff (by positivity) (by positivity)]
  linear_combination (mant : ℚ) * hpow

/-- RNE_PACK is correct rounding: a result that does not overflow is the exact value rounded to nearest, ties to
even, over the whole of BF16 (43_rounder_normalizer.md rules R145, R151). -/
theorem rnePack_isNearestEven (p : Params) (h : Params.sound p = true) (mant : Nat) (e : Int)
    (hlow : 2 ^ polyF p ≤ mant) (hhigh : mant < 2 ^ (polyF p + 1)) (hcls : (rnePack p mant e).cls ≠ .inf) :
    IsNearestEven (floatReco (rnePack p mant e)) ((mant : ℚ) / 2 ^ polyF p * (2 : ℚ) ^ e) := by
  obtain ⟨hnum, hfin⟩ := toNat_floatReco_rnePack p h mant e hlow hhigh hcls
  obtain ⟨hsubnormal, hnormal⟩ := roundedKept_range p h mant e hlow hhigh
  have hnormalRange (he : eMinN < packExp e) : eMinN ≤ e := by
    simp only [packExp] at he
    omega
  have hle : roundedKept p mant e ≤ 256 := by
    by_cases he : e < eMinN
    · exact (hsubnormal he).trans (by norm_num)
    · exact (hnormal (not_lt.mp he)).2
  have hvalue : wordValue (floatReco (rnePack p mant e)) = roundedKept p mant e * gridUnit (packExp e) :=
    wordValue_of_toNat_eq _ _ _ (eMinN_le_packExp e) hnum hfin hle fun he => (hnormal (hnormalRange he)).1
  have hlsb (heven : Even (roundedKept p mant e)) : (floatReco (rnePack p mant e)).getLsbD 0 = false := by
    apply getLsbD_zero_of_even
    rw [hnum]
    exact (Even.mul_left (by decide) _).add heven
  have hbinade (he : eMinN < packExp e) : (128 : ℚ) ≤ mant / 2 ^ roundShift p e := by
    rw [le_div_iff₀ (by positivity)]
    exact_mod_cast hiddenBit_mul_le_mant p h mant e hlow (hnormalRange he)
  rw [← shifted_mant_mul_gridUnit p h]
  exact isNearestEven_of_grid (eMinN_le_packExp e) (isFinite_of_toNat_lt _ hfin) hvalue hlsb
    (roundedKept_isNearestEvenInt p mant e (one_le_roundShift p h e)) hbinade

/-! The datapath. -/

theorem roundNormalize_of_pzero_eq_false (p : Params) (r : PolyResult) (bias : Nat) (h : r.pzero = false) :
    roundNormalize p r bias = rnePack p r.mant (r.polyExp - bias) := by
  rw [roundNormalize, h]
  rfl

/-- The evaluator never signals a zero, and its exponent is negative: a selected line is positive and below 1. -/
theorem polyEval_pzero_and_polyExp (c : Configuration) (frac : Nat) (hf : frac < 2 ^ fracW c.params) :
    (polyEval c.params c.table frac).pzero = false ∧ (polyEval c.params c.table frac).polyExp ≤ -1 := by
  obtain ⟨a, b, res, -, -, hpos, hlt, heval⟩ := polyEval_normalizes c frac hf
  rw [heval]
  exact ⟨rfl, (normalizeLine_polyExp_bounds c.params res hpos hlt).2⟩

/-- Settles O30: the range reducer and the evaluator are exact, the bias is subtracted from the exponent, and the
one rounding is correct. -/
theorem windowResponseIsCorrectlyRounded : Obligations.WindowResponseIsCorrectlyRounded := by
  intro c b x hx
  dsimp only
  have hexact := bias_add_frac_eq_scaled_magnitude c.params c.sound x b hx
  have hfrac := rangeReduce_frac_lt c.params c.sound x b hx
  rw [respond_window c b x hx, datapath]
  generalize rangeReduce c.params (decompose x) b = r at *
  obtain ⟨slope, intercept, hrom, hlow, hhigh, hvalue, -⟩ := normalizationIsExact c r.frac hfrac
  obtain ⟨hpzero, hexp⟩ := polyEval_pzero_and_polyExp c r.frac hfrac
  have hcls := rnePack_cls_ne_inf c.params (polyEval c.params c.table r.frac).mant
    ((polyEval c.params c.table r.frac).polyExp - r.bias) (by simp only [eMaxN]; omega)
  have hround := rnePack_isNearestEven c.params c.sound _ _ hlow hhigh hcls
  rw [zpow_sub₀ two_ne_zero, zpow_natCast, ← mul_div_assoc, hvalue] at hround
  rw [roundNormalize_of_pzero_eq_false _ _ _ hpzero]
  exact ⟨slope, intercept, hrom, hexact, hvalue, hround⟩

end Sys2Proof.Machine

/-! Every request word is legal (30_encoding.md rule R65). -/

namespace Sys2Proof

theorem decode_toNat (w : ReqWord) : decode w.toNat = .ok (decodeWord w) := by
  have hword : isRequestWord w.toNat = true := decide_eq_true w.isLt
  rw [decode, if_pos hword, BitVec.ofNat_toNat, BitVec.setWidth_eq]

/-- Settles O8: the word fits 17 bits, and its operation answers with the response its request is given. -/
theorem everyRequestIsAnsweredOnce : Obligations.EveryRequestIsAnsweredOnce := by
  intro w s
  exact ⟨decode_toNat w, _, (Machine.answers_iff (decodeWord w) s _).mpr rfl⟩

end Sys2Proof

/-! The dispatcher, row by row (44_dispatcher.md rule R160). -/

namespace Sys2Proof.Machine

/-- A row that responds alike in both modes is what both operations answer (44_dispatcher.md rule R173). -/
theorem both_answer_of_respond_eq {s : State} {x y : Word} (hloaded : s.tableLoaded = true)
    (h : ∀ b, respond s.cfg b x = y) : Answers (.exp2 x) s y ∧ Answers (.expE x) s y :=
  ⟨(answers_iff_of_loaded _ s y hloaded).mpr (h true).symm,
    (answers_iff_of_loaded _ s y hloaded).mpr (h false).symm⟩

/-! The rows of zeros and infinities. -/

theorem respond_of_isZero (c : Configuration) (b : Bool) (x : Word) (h : (classify x).isZero = true) :
    respond c b x = oneWord := by
  have hnan : ¬ (classify x).isNaN = true := by
    rw [isNaN_iff]
    exact fun hx => hx.2 ((isZero_iff x).mp h).2
  have hrow : selectRow c.params (decompose x) = .zero := by
    rw [selectRow, decompose_status, if_neg hnan, if_pos h]
  rw [respond, hrow]

theorem respond_of_isInf (c : Configuration) (b : Bool) (x : Word) (h : (classify x).isInf = true) :
    respond c b x = if signField x then zeroWord else infWord := by
  obtain ⟨hexp, hmant⟩ := (isInf_iff x).mp h
  have hnan : ¬ (classify x).isNaN = true := by
    rw [isNaN_iff]
    exact fun hx => hx.2 hmant
  have hzero : ¬ (classify x).isZero = true := by
    rw [isZero_iff]
    omega
  cases hsign : signField x <;> simp [respond, selectRow, hnan, hzero, h, hsign]

/-- Settles O13: both words are zeros by their class. -/
theorem zeroGivesOne : Obligations.ZeroGivesOne := by
  intro s x hloaded hx
  have hzero : (classify x).isZero = true := by
    obtain rfl | rfl := hx <;> decide
  exact both_answer_of_respond_eq hloaded fun b => respond_of_isZero s.cfg b x hzero

/-- Settles O14: both words are infinities by their class, and the sign parts them. -/
theorem infinitiesGiveTheirLimits : Obligations.InfinitiesGiveTheirLimits := by
  intro s hloaded
  exact ⟨both_answer_of_respond_eq hloaded fun b => respond_of_isInf s.cfg b 0x7F80#16 (by decide),
    both_answer_of_respond_eq hloaded fun b => respond_of_isInf s.cfg b 0xFF80#16 (by decide)⟩

/-! The row of NaNs: setting the quiet bit as arithmetic (44_dispatcher.md rule R161). -/

theorem quietBit_eq_twoPow : quietBit = BitVec.twoPow 16 6 := by decide

theorem getLsbD_six_iff (x : Word) : x.getLsbD 6 = true ↔ rawMant x / 64 = 1 := by
  rw [← BitVec.testBit_toNat, Nat.testBit_eq_decide_div_mod_eq, decide_eq_true_eq, rawMant]
  omega

theorem or_quietBit_of_quiet (x : Word) (h : rawMant x / 64 = 1) : x ||| quietBit = x := by
  have hbit := (getLsbD_six_iff x).mpr h
  apply BitVec.eq_of_getLsbD_eq
  intro i hi
  rw [BitVec.getLsbD_or, quietBit_eq_twoPow, BitVec.getLsbD_twoPow]
  by_cases hsix : 6 = i
  · subst hsix
    simp [hbit]
  · simp [hsix]

theorem toNat_or_quietBit_of_signalling (x : Word) (h : rawMant x / 64 ≠ 1) :
    (x ||| quietBit).toNat = x.toNat + 64 := by
  have hbit : ¬ x.getLsbD 6 = true := mt (getLsbD_six_iff x).mp h
  have hdisjoint : x &&& quietBit = 0#16 := by
    rw [quietBit_eq_twoPow, BitVec.and_twoPow, if_neg hbit]
  have hlt := x.isLt
  have hvalue : quietBit.toNat = 64 := by decide
  rw [← BitVec.add_eq_or_of_and_eq_zero x quietBit hdisjoint, BitVec.toNat_add, hvalue]
  rw [rawMant] at h
  omega

/-- Settles O12: a quiet NaN is its own response, and a signalling one gains 64 in its mantissa field, which
leaves the other fields alone. -/
theorem nanComesBackQuieted : Obligations.NanComesBackQuieted := by
  intro s x hloaded hexp hmant
  obtain ⟨hexp2, hexpE⟩ := both_answer_of_respond_eq hloaded fun b =>
    respond_of_isNaN s.cfg b x ((isNaN_iff x).mpr ⟨hexp, hmant⟩)
  refine ⟨hexp2, hexpE, ?_⟩
  by_cases hquiet : rawMant x / 64 = 1
  · have hsame : x ||| 0x0040#16 = x := or_quietBit_of_quiet x hquiet
    rw [hsame]
    exact ⟨hexp, rfl, hquiet, rfl, fun _ => rfl⟩
  · have hset : (x ||| 0x0040#16).toNat = x.toNat + 64 := toNat_or_quietBit_of_signalling x hquiet
    simp only [rawExp, rawMant] at hexp hmant hquiet
    simp only [rawExp, rawSign, rawMant, hset]
    exact ⟨by omega, by omega, by omega, by omega, fun h => absurd h hquiet⟩

/-! The rows of finite words that are not zero. -/

/-- The exponent that the dispatcher compares is the one of 40_float_codec.md rule R82. -/
theorem decompose_exponent_eq_rawE (x : Word) (hzero : ¬ (classify x).isZero = true) :
    (decompose x).unbiasedExponent = rawE x := by
  rw [isZero_iff] at hzero
  rw [decompose_exponent, rawE, rawExp]
  exact if_congr ⟨fun h => h.1, fun h => ⟨h, fun hm => hzero ⟨h, hm⟩⟩⟩ rfl rfl

/-- Past the special rows the sign and the thresholds alone select the row. -/
theorem selectRow_of_finite (p : Params) (x : Word) (hfin : rawExp x ≠ 255)
    (hzero : ¬ (classify x).isZero = true) :
    selectRow p (decompose x) =
      if signField x then
        if rawE x < p.negEMin then .negSmall else if p.negEMax < rawE x then .negLarge else .window
      else if rawE x < p.posEOne then .posSmall else if p.posEInf ≤ rawE x then .posLarge
      else .posPlaceholder := by
  have hnan : ¬ (classify x).isNaN = true := by
    rw [isNaN_iff]
    exact fun hx => hfin hx.1
  have hinf : ¬ (classify x).isInf = true := by
    rw [isInf_iff]
    exact fun hx => hfin hx.1
  cases hsign : signField x <;>
    simp [selectRow, hnan, hzero, hinf, hsign, decompose_exponent_eq_rawE x hzero]

theorem respond_of_positive (c : Configuration) (b : Bool) (x : Word) (hsign : rawSign x = 0)
    (hfin : rawExp x ≠ 255) (hzero : ¬ (classify x).isZero = true) :
    respond c b x =
      if rawE x < c.params.posEOne then oneWord else if c.params.posEInf ≤ rawE x then infWord
      else oneWord := by
  have hpos := (signField_eq_false_iff x).mpr ((rawSign_eq_zero_iff x).mp hsign)
  rw [respond, selectRow_of_finite c.params x hfin hzero, hpos]
  by_cases hone : rawE x < c.params.posEOne
  · simp [hone]
  · by_cases hinf : c.params.posEInf ≤ rawE x <;> simp [hone, hinf]

theorem respond_of_negative (c : Configuration) (b : Bool) (x : Word) (hsign : rawSign x = 1)
    (hfin : rawExp x ≠ 255) (hzero : ¬ (classify x).isZero = true) :
    respond c b x =
      if rawE x < c.params.negEMin then oneWord else if c.params.negEMax < rawE x then zeroWord
      else datapath c (decompose x) b := by
  have hneg := (rawSign_eq_one_iff x).mp hsign
  rw [respond, selectRow_of_finite c.params x hfin hzero, hneg]
  by_cases hsmall : rawE x < c.params.negEMin
  · simp [hsmall]
  · by_cases hlarge : c.params.negEMax < rawE x <;> simp [hsmall, hlarge]

/-- The two zeros are told apart by the sign. -/
theorem not_isZero_of_rawSign_eq_zero (x : Word) (hsign : rawSign x = 0) (hx : x ≠ 0x0000#16) :
    ¬ (classify x).isZero = true :=
  fun h => hx (eq_zeroWord_of_isZero x ((rawSign_eq_zero_iff x).mp hsign) h)

theorem not_isZero_of_rawSign_eq_one (x : Word) (hsign : rawSign x = 1) (hx : x ≠ 0x8000#16) :
    ¬ (classify x).isZero = true := by
  intro h
  obtain ⟨hexp, hmant⟩ := (isZero_iff x).mp h
  rw [rawSign] at hsign
  exact hx (BitVec.eq_of_toNat_eq (show x.toNat = 0x8000 by omega))

/-- Settles O15: below both thresholds and between them the response is 1.0, so only an exponent that reaches
`POS_E_INF` and not below `POS_E_ONE` gives +Infinity. -/
theorem positiveFiniteArgumentsGiveConstants : Obligations.PositiveFiniteArgumentsGiveConstants := by
  intro s x hloaded hsign hfin hx
  have hzero := not_isZero_of_rawSign_eq_zero x hsign hx
  have hrespond (b : Bool) := respond_of_positive s.cfg b x hsign hfin hzero
  have hone (h : rawE x < s.cfg.params.posEOne ∨ rawE x < s.cfg.params.posEInf) :
      Answers (.exp2 x) s oneWord ∧ Answers (.expE x) s oneWord :=
    both_answer_of_respond_eq hloaded fun b => by
      rw [hrespond, ite_eq_left_iff]
      exact fun hnot => if_neg (not_le.mpr (h.resolve_left hnot))
  have hinf (hlow : s.cfg.params.posEOne ≤ rawE x) (hhigh : s.cfg.params.posEInf ≤ rawE x) :
      Answers (.exp2 x) s infWord ∧ Answers (.expE x) s infWord :=
    both_answer_of_respond_eq hloaded fun b => by
      rw [hrespond, if_neg (not_lt.mpr hlow), if_pos hhigh]
  refine ⟨fun h => hone (.inl h), hinf, fun _ h => hone (.inr h), fun hparams => ?_⟩
  rw [hparams, reference_posEOne, reference_posEInf] at hone hinf
  exact ⟨fun h => hone (.inr (by omega)), fun h => hinf (by omega) h⟩

/-- Settles O17: outside the window the thresholds select a constant row, and no exponent is past both since
`NEG_E_MIN` is negative and `NEG_E_MAX` is not. -/
theorem negativeArgumentsOutsideTheWindow : Obligations.NegativeArgumentsOutsideTheWindow := by
  intro s x hloaded hsign hfin hx
  have hzero := not_isZero_of_rawSign_eq_one x hsign hx
  have hrespond (b : Bool) := respond_of_negative s.cfg b x hsign hfin hzero
  obtain ⟨-, -, -, -, -, ⟨hmin, hmax⟩, -⟩ := (sound_iff s.cfg.params).mp s.cfg.sound
  have hsmall (h : rawE x < s.cfg.params.negEMin) :
      Answers (.exp2 x) s oneWord ∧ Answers (.expE x) s oneWord :=
    both_answer_of_respond_eq hloaded fun b => by
      rw [hrespond, if_pos h]
  have hlarge (h : s.cfg.params.negEMax < rawE x) :
      Answers (.exp2 x) s zeroWord ∧ Answers (.expE x) s zeroWord :=
    both_answer_of_respond_eq hloaded fun b => by
      rw [hrespond, if_neg (not_lt.mpr (hmin.le.trans (hmax.trans h.le))), if_pos h]
  refine ⟨hsmall, hlarge, fun hparams => ?_⟩
  rw [hparams, reference_negEMin] at hsmall
  rw [hparams, reference_negEMax] at hlarge
  exact ⟨fun h => hsmall (by omega), fun h => hlarge (by omega)⟩

/-- Settles O18: a denormal lies below every window, since `NEG_E_MIN` is above the least normal exponent, and
the datapath is the composition of the four stages. -/
theorem windowArgumentsRunTheDatapath : Obligations.WindowArgumentsRunTheDatapath := by
  intro s x hloaded hsign hfin hx hlow hhigh
  obtain ⟨-, -, -, -, -, -, -, -, -, hmin⟩ := (sound_iff s.cfg.params).mp s.cfg.sound
  have hnormal : rawExp x ≠ 0 := fun hexp => by
    rw [rawE, if_pos hexp] at hlow
    exact absurd (hmin.trans_le hlow) (lt_irrefl _)
  have hanswer (i : Instr) (hi : i.operand = x) :
      Answers i s (datapath s.cfg (decompose x) i.base2) := by
    rw [answers_iff_of_loaded i s _ hloaded, hi,
      respond_of_negative s.cfg _ x hsign hfin (not_isZero_of_rawSign_eq_one x hsign hx),
      if_neg (not_lt.mpr hlow), if_neg (not_lt.mpr hhigh)]
  exact ⟨hnormal, hanswer (.exp2 x) rfl, hanswer (.expE x) rfl⟩

end Sys2Proof.Machine

/-! The configuration while the block is in use (70_reset_and_hazards.md rule R205). -/

namespace Sys2Proof.Machine

/-- The operations have no load of the table: only the start-up event sets it. -/
theorem exec_keeps_configuration {i : Instr} {s t : State} (h : exec i s = .next t) :
    t.cfg = s.cfg ∧ t.tableLoaded = s.tableLoaded := by
  obtain ⟨u, hexec, hu⟩ := exec_next i s
  obtain rfl : u.cycle _ = t := Host.Outcome.next.inj (hexec.symm.trans h)
  rw [cycle_cfg, cycle_tableLoaded, hu]
  exact ⟨rfl, rfl⟩

/-- A step without a request may complete the load, so a loaded table is only known to stay so. -/
theorem step_keeps_configuration {s t : State} (h : step s = .next t) :
    t.cfg = s.cfg ∧ (s.tableLoaded = true → t.tableLoaded = true) := by
  obtain ⟨w, rest, -, hrequest⟩ | ⟨-, u, hcycle, hu, hloaded, -⟩ := step_cases s
  · obtain ⟨hcfg, htable⟩ := exec_keeps_configuration (hrequest.symm.trans h)
    exact ⟨hcfg, htable.trans⟩
  · obtain rfl : u.cycle none = t := Host.Outcome.next.inj (hcycle.symm.trans h)
    rw [cycle_cfg, cycle_tableLoaded]
    exact ⟨by rw [hu], hloaded⟩

/-- Settles O43: a ROM read is a function of the configuration, which every step keeps, and a configuration
holds no table but an admitted one. -/
theorem noStepChangesTheConfiguration : Obligations.NoStepChangesTheConfiguration := by
  intro s t hstep
  obtain ⟨hcfg, hloaded⟩ := step_keeps_configuration hstep
  exact ⟨hcfg, fun j => by rw [hcfg], state_memory_wf t, hloaded⟩

end Sys2Proof.Machine

/-! Encoding and decoding (30_encoding.md rules R61, R64, R65 and R69). -/

namespace Sys2Proof

theorem decodeWord_base2 (w : ReqWord) : (decodeWord w).base2 = w.mode := by
  by_cases h : w.mode = true
  · rw [decodeWord_of_mode w h, h]
    rfl
  · rw [decodeWord_of_not_mode w h, Bool.eq_false_of_not_eq_true h]
    rfl

theorem decodeWord_operand (w : ReqWord) : (decodeWord w).operand = w.operand := by
  by_cases h : w.mode = true
  · rw [decodeWord_of_mode w h]
    rfl
  · rw [decodeWord_of_not_mode w h]
    rfl

theorem encodedFields (i : Instr) : Laws.EncodedFields.Statement i := by
  cases i with
  | exp2 x => exact Laws.EncodedFields.exp2 x
  | expE x => exact Laws.EncodedFields.expE x

theorem Instr.eq_of_fields {i j : Instr} (hmode : i.base2 = j.base2) (hoperand : i.operand = j.operand) :
    i = j := by
  cases i with
  | exp2 x =>
    cases j with
    | exp2 y => exact congrArg Instr.exp2 hoperand
    | expE y => cases hmode
  | expE x =>
    cases j with
    | exp2 y => cases hmode
    | expE y => exact congrArg Instr.expE hoperand

theorem ReqWord.eq_of_fields {v w : ReqWord} (hmode : v.mode = w.mode) (hoperand : v.operand = w.operand) :
    v = w := by
  have hv := v.isLt
  have hw := w.isLt
  rw [mode_eq_decide, mode_eq_decide, decide_eq_decide] at hmode
  rw [operand_eq_ofNat_mod, operand_eq_ofNat_mod, ← BitVec.toNat_inj, BitVec.toNat_ofNat,
    BitVec.toNat_ofNat] at hoperand
  apply BitVec.eq_of_toNat_eq
  omega

theorem decodeWord_encode (i : Instr) : decodeWord (encode i) = i := by
  obtain ⟨hmode, hoperand⟩ := encodedFields i
  exact Instr.eq_of_fields ((decodeWord_base2 _).trans hmode) ((decodeWord_operand _).trans hoperand)

theorem encode_decodeWord (w : ReqWord) : encode (decodeWord w) = w := by
  obtain ⟨hmode, hoperand⟩ := encodedFields (decodeWord w)
  exact ReqWord.eq_of_fields (hmode.trans (decodeWord_base2 w)) (hoperand.trans (decodeWord_operand w))

theorem decode_of_lt (n : Nat) (h : n < 2 ^ 17) : decode n = .ok (decodeWord (BitVec.ofNat 17 n)) :=
  if_pos (decide_eq_true h)

theorem decode_of_le (n : Nat) (h : 2 ^ 17 ≤ n) : decode n = .error .notARequestWord :=
  if_neg (by rw [isRequestWord, decide_eq_true_eq]; exact not_lt.mpr h)

theorem decodeTableWord_eq_some_iff (nbits n : Nat) (i : Instr) :
    decodeTableWord nbits n = some i ↔ decode (n % 2 ^ nbits) = .ok i := by
  rw [decodeTableWord]
  cases decode (n % 2 ^ nbits) <;> simp

/-- Settles O1: an instruction and a request word are each determined by their mode and operand, which encoder
and decoder both keep. -/
theorem encodeAndDecodeAreInverse : Obligations.EncodeAndDecodeAreInverse := by
  refine ⟨fun i => ?_, encode_decodeWord⟩
  have hdecode : decode (encode i).toNat = .ok i := by rw [decode_toNat, decodeWord_encode]
  refine ⟨decodeWord_encode i, hdecode, ?_⟩
  rw [decodeTableWord_eq_some_iff, Nat.mod_eq_of_lt (encode i).isLt, hdecode]

/-- Settles O3: each word is evaluated. -/
theorem sampleRequestWordsDecode : Obligations.SampleRequestWordsDecode := by
  unfold Obligations.SampleRequestWordsDecode
  decide

/-- Settles O4: the decoder compares the number with `2 ^ 17` and does nothing else. -/
theorem onlySeventeenBitWordsDecode : Obligations.OnlySeventeenBitWordsDecode :=
  fun n => ⟨decode_of_lt n, decode_of_le n⟩

end Sys2Proof

/-! One step of the machine: what an instruction and a cycle without a request do to each field
(70_reset_and_hazards.md rules R202 and R203). -/

namespace Sys2Proof.Machine

/-- Once the table is loaded an instruction presents its request and passes one cycle with its response. -/
theorem exec_of_loaded (i : Instr) (s : State) (h : s.tableLoaded = true) :
    exec i s =
      .next ((s.present i.base2 i.operand).cycle (some (respond s.cfg i.base2 i.operand))) := by
  cases i with
  | exp2 x => simp [exec, execExp2, State.serve, h, Instr.base2, Instr.operand]
  | expE x => simp [exec, execExpE, State.serve, h, Instr.base2, Instr.operand]

theorem cycle_some_combinational (y : Word) (s : State) (h : s.pipe = []) :
    s.cycle (some y) = s.deliver y := by
  simp [State.cycle, h]

/-- A cycle with a place due delivers what is in it, and puts the accepted response, if any, behind the
rest. -/
theorem cycle_of_due (e due : Option Word) (rest : List (Option Word)) (s : State)
    (h : s.pipe = due :: rest) :
    (s.cycle e).pipe = rest ++ [e] ∧ (s.cycle e).responses = s.responses ++ due.toList ∧
      ∀ y, due = some y → (s.cycle e).yRaw = y := by
  cases due <;> simp [State.cycle, h]

theorem cycle_none_responses_combinational (s : State) (h : s.pipe = []) :
    (s.cycle none).responses = s.responses := by
  by_cases hs : s.phase = .settled
  · rw [cycle_none_settled s h hs, drive_responses]
  · rw [cycle_none_unsettled s h hs, showUnspecified_responses]

theorem cycle_extends_responses (e : Option Word) (s : State) : s.responses <+: (s.cycle e).responses := by
  obtain ⟨y, rest, -, h⟩ | ⟨-, -, -, h⟩ | ⟨rest, -, -, h⟩ := cycle_cases e s
  · exact ⟨[y], by rw [h]; rfl⟩
  · rw [h, drive_responses]
  · rw [h]
    exact ⟨[], List.append_nil _⟩

theorem step_request {s : State} {w : ReqWord} {rest : List PortEvent} (h : s.events = .request w :: rest) :
    step s = exec (decodeWord w) { s with events := rest } := by
  rw [step, h]

theorem step_changing {s : State} {w : ReqWord} {rest : List PortEvent} (h : s.events = .changing w :: rest) :
    step s = .next (({ s with events := rest }).changingCycle w.mode w.operand) := by
  rw [step, h]

theorem step_loadComplete {s : State} {rest : List PortEvent} (h : s.events = .loadComplete :: rest) :
    step s = .next ({ s with events := rest }).loadCycle := by
  rw [step, h]

theorem step_idle {s : State} (h : s.events = [] ∨ ∃ rest, s.events = .idle :: rest) :
    step s = .next ({ s with events := s.events.tail }).idleCycle := by
  obtain h | ⟨rest, h⟩ := h
  · obtain ⟨cfg, tl, b, x, y, ph, pipe, ev, rs, pos, fc⟩ := s
    subst h
    rfl
  · rw [step, h]
    rfl

/-- Every step is one cycle, with the response to the request it takes, if it takes one; before it the ports,
the phase, the load and the host's sequence may have changed, and nothing else. -/
theorem step_is_cycle (s : State) :
    ∃ (e : Option Word) (u : State), step s = .next (u.cycle e) ∧ u.cfg = s.cfg ∧ u.pipe = s.pipe ∧
      u.responses = s.responses := by
  obtain ⟨w, rest, -, hstep⟩ | ⟨-, u, hstep, hu, -⟩ := step_cases s
  · obtain ⟨u, hexec, hu⟩ := exec_next (decodeWord w) { s with events := rest }
    exact ⟨_, u, hstep.trans hexec, by rw [hu]; rfl, by rw [hu]; rfl, by rw [hu]; rfl⟩
  · exact ⟨none, u, hstep, by rw [hu], by rw [hu], by rw [hu]⟩

theorem exec_outstanding {i : Instr} {s t : State} (h : exec i s = .next t) :
    t.outstanding = s.outstanding ++ [responseGiven s i.base2 i.operand] ∧ t.position = s.position + 1 ∧
      t.events = s.events := by
  obtain ⟨u, hexec, hu⟩ := exec_next i s
  obtain rfl : u.cycle _ = t := Host.Outcome.next.inj (hexec.symm.trans h)
  rw [cycle_outstanding, cycle_position, cycle_events, hu]
  exact ⟨rfl, rfl, rfl⟩

/-- A step without a request adds no response. -/
theorem step_outstanding_of_no_request {s t : State} (hno : ∀ w rest, s.events ≠ .request w :: rest)
    (h : step s = .next t) : t.outstanding = s.outstanding ∧ t.position = s.position ∧
      t.events = s.events.tail := by
  obtain ⟨w, rest, hreq, -⟩ | ⟨-, u, hstep, hu, -⟩ := step_cases s
  · exact absurd hreq (hno w rest)
  · obtain rfl : u.cycle none = t := Host.Outcome.next.inj (hstep.symm.trans h)
    rw [cycle_outstanding, cycle_position, cycle_events, Option.toList_none, List.append_nil, hu]
    exact ⟨rfl, rfl, rfl⟩

theorem step_outstanding_of_request {s t : State} {w : ReqWord} {rest : List PortEvent}
    (hreq : s.events = .request w :: rest) (hloaded : s.tableLoaded = true) (h : step s = .next t) :
    t.outstanding = s.outstanding ++ [respond s.cfg (decodeWord w).base2 (decodeWord w).operand] ∧
      t.position = s.position + 1 ∧ t.events = rest := by
  have hexec := exec_outstanding ((step_request hreq).symm.trans h)
  rwa [responseGiven, if_pos hloaded] at hexec

/-- A step puts one place into the pipe and takes the one due out of it, whatever the event. -/
theorem step_of_due {s t : State} {due : Option Word} {rest : List (Option Word)}
    (hpipe : s.pipe = due :: rest) (h : step s = .next t) :
    (∃ e, t.pipe = rest ++ [e]) ∧ t.responses = s.responses ++ due.toList ∧
      ∀ y, due = some y → t.yRaw = y := by
  obtain ⟨e, u, hstep, -, hu, hresponses⟩ := step_is_cycle s
  obtain rfl : u.cycle e = t := Host.Outcome.next.inj (hstep.symm.trans h)
  obtain ⟨hrest, hdelivered, hraw⟩ := cycle_of_due e due rest u (hu.trans hpipe)
  exact ⟨⟨e, hrest⟩, hresponses ▸ hdelivered, hraw⟩

theorem exec_answers_next (i : Instr) (s : State) : ∃ t, exec i s = .next t := by
  obtain ⟨u, hexec, -⟩ := exec_next i s
  exact ⟨_, hexec⟩

theorem step_answers_next (s : State) : ∃ t, step s = .next t := by
  obtain ⟨e, u, hstep, -⟩ := step_is_cycle s
  exact ⟨_, hstep⟩

/-- Settles O5: a placed word of at most 17 bits is decoded by the same decoder that the step runs. -/
theorem stepRunsTheDecodedRequest : Obligations.StepRunsTheDecodedRequest := by
  refine ⟨fun s w rest => step_request, fun s nbits n i hdecode => ?_⟩
  rw [decodeTableWord_eq_some_iff] at hdecode
  have hword : decodeWord (BitVec.ofNat 17 (n % 2 ^ nbits)) = i := by
    by_cases hlt : n % 2 ^ nbits < 2 ^ 17
    · rw [decode_of_lt _ hlt] at hdecode
      exact Except.ok.inj hdecode
    · rw [decode_of_le _ (not_lt.mp hlt)] at hdecode
      cases hdecode
  rw [step_request (withFetchWord_events s nbits n), hword]
  rfl

/-! The two operations. -/

/-- The combinational form delivers at once, so the next state is known field by field. -/
theorem exec_of_loaded_combinational (i : Instr) (s : State) (hloaded : s.tableLoaded = true)
    (hpipe : s.pipe = []) :
    exec i s = .next ((s.present i.base2 i.operand).deliver (respond s.cfg i.base2 i.operand)) := by
  rw [exec_of_loaded i s hloaded, cycle_some_combinational _ (s.present i.base2 i.operand) hpipe]

/-- Settles O9: the request is presented and its response delivered at once. -/
theorem exp2CompletesWithItsResponse : Obligations.Exp2CompletesWithItsResponse := by
  intro s x hloaded hpipe
  rw [exec_of_loaded_combinational _ s hloaded hpipe, State.present, hloaded]
  rfl

/-- Settles O10: the request is presented and its response delivered at once. -/
theorem expECompletesWithItsResponse : Obligations.ExpECompletesWithItsResponse := by
  intro s x hloaded hpipe
  rw [exec_of_loaded_combinational _ s hloaded hpipe, State.present, hloaded]
  rfl

/-- With a place due an instruction's response goes to the end of the pipe. -/
theorem exec_of_due (i : Instr) (s : State) (due : Option Word) (rest : List (Option Word))
    (hloaded : s.tableLoaded = true) (hpipe : s.pipe = due :: rest) :
    ∃ t, exec i s = .next t ∧ t.pipe = rest ++ [some (respond s.cfg i.base2 i.operand)] ∧
      t.responses = s.responses ++ due.toList ∧ ∀ y, due = some y → t.yRaw = y :=
  ⟨_, exec_of_loaded i s hloaded, cycle_of_due _ due rest (s.present i.base2 i.operand) hpipe⟩

/-- Settles O11: both operations pass one cycle of the pipe. -/
theorem registeredRequestEntersThePipe : Obligations.RegisteredRequestEntersThePipe :=
  fun s x due rest hloaded hpipe =>
    ⟨exec_of_due (.exp2 x) s due rest hloaded hpipe, exec_of_due (.expE x) s due rest hloaded hpipe⟩

/-- What an instruction does to the ports and leaves of the state, loaded or not. -/
theorem exec_frame {i : Instr} {s t : State} (h : exec i s = .next t) :
    t.base2 = i.base2 ∧ t.xRaw = i.operand ∧ t.phase = .ofStable s.tableLoaded ∧
      t.pipe.length = s.pipe.length := by
  obtain ⟨u, hexec, hu⟩ := exec_next i s
  obtain rfl : u.cycle _ = t := Host.Outcome.next.inj (hexec.symm.trans h)
  rw [cycle_base2, cycle_xRaw, cycle_phase, cycle_pipe_length, hu]
  exact ⟨rfl, rfl, rfl, rfl⟩

theorem exec_freeCount {i : Instr} {s t : State} (h : exec i s = .next t) (hloaded : s.tableLoaded = true)
    (hpipe : s.pipe = []) : t.freeCount = s.freeCount := by
  obtain rfl := Host.Outcome.next.inj ((exec_of_loaded_combinational i s hloaded hpipe).symm.trans h)
  rfl

/-- Settles O44: the frame holds of either operation, and only the mode on the ports tells them apart. -/
theorem requestsChangeOnlyPortsAndResponses : Obligations.RequestsChangeOnlyPortsAndResponses := by
  intro s t x
  refine ⟨fun h => (exec_frame h).1, fun h => (exec_frame h).1, fun h => ?_⟩
  obtain ⟨i, hi, hoperand⟩ : ∃ i : Instr, exec i s = .next t ∧ i.operand = x := by
    obtain h | h := h
    · exact ⟨.exp2 x, h, rfl⟩
    · exact ⟨.expE x, h, rfl⟩
  obtain ⟨hcfg, hload⟩ := exec_keeps_configuration hi
  obtain ⟨-, hposition, hevents⟩ := exec_outstanding hi
  obtain ⟨-, hraw, hphase, hpipe⟩ := exec_frame hi
  exact ⟨hcfg, hload, hevents, hraw.trans hoperand, hphase, hposition, hpipe, exec_freeCount hi,
    fun j => by rw [hcfg]⟩

/-! Cycles without a request. -/

theorem idleCycle_ports (s : State) :
    s.idleCycle.base2 = s.base2 ∧ s.idleCycle.xRaw = s.xRaw ∧ s.idleCycle.tableLoaded = s.tableLoaded ∧
      s.idleCycle.phase = if s.phase = .changing then .ofStable s.tableLoaded else s.phase := by
  simp [State.idleCycle, settle_phase]

/-- A combinational block that is settled after an idle cycle drives its response and does nothing else. -/
theorem idleCycle_of_settled (s : State) (hpipe : s.pipe = []) (hphase : s.idleCycle.phase = .settled) :
    s.idleCycle = { s with phase := .settled, yRaw := respond s.cfg s.base2 s.xRaw } := by
  rw [State.idleCycle, cycle_phase] at hphase
  rw [State.idleCycle, cycle_none_settled _ ((settle_pipe s).trans hpipe) hphase, State.drive, settle_cfg,
    settle_base2, settle_xRaw, settle_eq, ← settle_phase, hphase]

/-- The clauses for a cycle in which the inputs stay as they are. -/
theorem step_idle_spec {s t : State} (hidle : s.events = [] ∨ ∃ rest, s.events = .idle :: rest)
    (h : step s = .next t) :
    t.base2 = s.base2 ∧ t.xRaw = s.xRaw ∧ t.tableLoaded = s.tableLoaded ∧
      (s.phase ≠ .changing → t.phase = s.phase) ∧
      (s.phase = .changing → (s.tableLoaded = true → t.phase = .settled) ∧
        (s.tableLoaded = false → t.phase = .unspecified)) ∧
      (s.pipe = [] → t.phase = .settled →
        t = { s with events := s.events.tail, phase := .settled, yRaw := respond s.cfg s.base2 s.xRaw }) ∧
      (s.pipe = [] → s.phase = .settled → s.yRaw = respond s.cfg s.base2 s.xRaw →
        t = { s with events := s.events.tail }) := by
  obtain rfl := Host.Outcome.next.inj ((step_idle hidle).symm.trans h)
  obtain ⟨hbase2, hraw, hload, hphase⟩ := idleCycle_ports { s with events := s.events.tail }
  have hsettled := idleCycle_of_settled { s with events := s.events.tail }
  refine ⟨hbase2, hraw, hload, fun hp => hphase.trans (if_neg hp), fun hp => ?_, hsettled,
    fun hpipe hp hy => ?_⟩
  · rw [hphase, if_pos hp]
    exact ⟨fun hl => by rw [hl]; rfl, fun hl => by rw [hl]; rfl⟩
  · rw [hsettled hpipe (by rw [hphase, if_neg (by rw [hp]; decide)]; exact hp), ← hp, ← hy]

theorem step_changing_spec {s t : State} {w : ReqWord} {rest : List PortEvent}
    (hevents : s.events = .changing w :: rest) (h : step s = .next t) :
    t.base2 = w.mode ∧ t.xRaw = w.operand ∧ t.phase = .changing ∧ t.tableLoaded = s.tableLoaded := by
  obtain rfl := Host.Outcome.next.inj ((step_changing hevents).symm.trans h)
  simp [State.changingCycle]

theorem step_loadComplete_spec {s t : State} {rest : List PortEvent}
    (hevents : s.events = .loadComplete :: rest) (h : step s = .next t) :
    t.base2 = s.base2 ∧ t.xRaw = s.xRaw ∧ t.phase = s.phase ∧ t.tableLoaded = true := by
  obtain rfl := Host.Outcome.next.inj ((step_loadComplete hevents).symm.trans h)
  simp [State.loadCycle]

/-- Settles O6: no event but a request adds a response, and the ports follow the event. -/
theorem cyclesWithoutRequestGiveNoResponse : Obligations.CyclesWithoutRequestGiveNoResponse := by
  intro s hno
  obtain ⟨t, h⟩ := step_answers_next s
  obtain ⟨hout, hposition, hevents⟩ := step_outstanding_of_no_request hno h
  exact ⟨t, h, hout, hevents, (step_keeps_configuration h).1, hposition,
    fun w rest hchanging => step_changing_spec hchanging h,
    fun rest hload => step_loadComplete_spec hload h, fun hidle => step_idle_spec hidle h⟩

end Sys2Proof.Machine

/-! The invariants of the state (70_reset_and_hazards.md rules R200 and R203, 30_encoding.md rule R71). -/

namespace Sys2Proof.Machine

theorem pipe_eq_nil_of_combinational {s : State} (hlatency : s.pipe.length = s.cfg.params.latency)
    (hzero : s.cfg.params.latency = 0) : s.pipe = [] :=
  List.eq_nil_of_length_eq_zero (hlatency.trans hzero)

/-- An instruction counts its request with its response; a settled port shows that response at once. -/
theorem exec_keeps_inv {i : Instr} {s t : State} (hs : s.Inv) (h : exec i s = .next t) : t.Inv := by
  obtain ⟨hlatency, hone, -, -⟩ := hs
  obtain ⟨hcfg, hload⟩ := exec_keeps_configuration h
  obtain ⟨hout, hposition, -⟩ := exec_outstanding h
  obtain ⟨hbase2, hraw, hphase, hlength⟩ := exec_frame h
  have hloaded (hsettled : t.phase = .settled) : s.tableLoaded = true :=
    (ofStable_eq_settled_iff _).mp (hphase.symm.trans hsettled)
  refine ⟨by rw [hlength, hcfg, hlatency], by simp [hout, hposition, hone], fun hsettled hzero => ?_,
    fun hsettled => hload.trans (hloaded hsettled)⟩
  rw [hcfg] at hzero
  have hexec := exec_of_loaded_combinational i s (hloaded hsettled)
    (pipe_eq_nil_of_combinational hlatency hzero)
  obtain rfl := Host.Outcome.next.inj (hexec.symm.trans h)
  rfl

/-- A cycle of settled inputs drives `y_raw` anew from the ports. -/
theorem cycle_none_keeps_inv {u : State} (hlatency : u.pipe.length = u.cfg.params.latency)
    (hone : u.outstanding.length = u.position) (hloaded : u.phase = .settled → u.tableLoaded = true) :
    (u.cycle none).Inv := by
  refine ⟨by simpa using hlatency, by simpa [cycle_outstanding] using hone, fun hsettled hzero => ?_,
    by simpa using hloaded⟩
  rw [cycle_phase] at hsettled
  rw [cycle_cfg] at hzero
  rw [cycle_none_settled u (pipe_eq_nil_of_combinational hlatency hzero) hsettled]
  rfl

/-- Settles O41: a step is an instruction, or a cycle that settles no inputs unless the table is loaded. -/
theorem everyStepKeepsTheInvariant : Obligations.EveryStepKeepsTheInvariant := by
  intro s t hs h
  obtain ⟨w, rest, -, hstep⟩ | ⟨-, u, hstep, hu, hload, hphase, -⟩ := step_cases s
  · have hrest : ({ s with events := rest } : State).Inv :=
      ⟨hs.latency, hs.onePerRequest, hs.combinational, hs.loaded⟩
    exact exec_keeps_inv hrest (hstep.symm.trans h)
  · obtain rfl : u.cycle none = t := Host.Outcome.next.inj (hstep.symm.trans h)
    refine cycle_none_keeps_inv (by rw [hu]; exact hs.latency) (by rw [hu]; exact hs.onePerRequest)
      fun hsettled => hload ?_
    obtain hbefore | ⟨-, hloaded⟩ := hphase hsettled
    · exact hs.loaded hbefore
    · exact hloaded

/-- The response of every request is of a stated form. -/
theorem isResponse_respond (c : Configuration) (b : Bool) (x : Word) : IsResponse (respond c b x) :=
  (responsesAreOfTheStatedForms c b x).1

/-- Settles O42: a step adds at most the response of one request, which the dispatcher gives its form. -/
theorem everyStepKeepsResponsesInForm : Obligations.EveryStepKeepsResponsesInForm := by
  intro s t hloaded hs h
  refine ⟨(step_keeps_configuration h).2 hloaded, ?_⟩
  by_cases hreq : ∃ w rest, s.events = .request w :: rest
  · obtain ⟨w, rest, hevents⟩ := hreq
    rw [State.ResponsesInForm, (step_outstanding_of_request hevents hloaded h).1]
    simp only [List.mem_append, List.mem_singleton]
    rintro y (hy | rfl)
    · exact hs y hy
    · exact isResponse_respond _ _ _
  · have hno (w rest) (hevents : s.events = .request w :: rest) : False := hreq ⟨w, rest, hevents⟩
    rw [State.ResponsesInForm, (step_outstanding_of_no_request hno h).1]
    exact hs

theorem outstanding_powerUp (c : Configuration) : (State.powerUp c).outstanding = [] := by
  simp [State.outstanding]

theorem inv_powerUp (c : Configuration) : (State.powerUp c).Inv :=
  ⟨by simp, by simp [outstanding_powerUp], nofun, nofun⟩

/-- Settles O39: reset is the power-up of the hardware's configuration, whose table is admitted. -/
theorem resetState : Obligations.ResetState :=
  ⟨rfl, rfl, memory_wf_of_admitted _ _ hardwareTable_admitted, hardwareTable_admitted, rfl, rfl,
    outstanding_powerUp _, rfl, rfl⟩

/-- Settles O40: at power-up nothing is settled and nothing has been answered. -/
theorem invariantHoldsAtPowerUp : Obligations.InvariantHoldsAtPowerUp := by
  refine ⟨fun c => ⟨inv_powerUp c, ?_⟩, inv_powerUp _⟩
  rw [State.ResponsesInForm, outstanding_powerUp]
  exact nofun

/-- Settles O45: the response of a request goes behind all earlier ones, and what the host has received
stays. -/
theorem oneResponsePerRequestInOrder : Obligations.OneResponsePerRequestInOrder := by
  intro s t hloaded h
  refine ⟨fun w rest hreq => ?_, fun hno => ?_, ?_⟩
  · obtain ⟨hout, hposition, -⟩ := step_outstanding_of_request hreq hloaded h
    exact ⟨hout, hposition⟩
  · obtain ⟨hout, hposition, -⟩ := step_outstanding_of_no_request hno h
    exact ⟨hout, hposition⟩
  · obtain ⟨e, u, hstep, -, -, hresponses⟩ := step_is_cycle s
    obtain rfl : u.cycle e = t := Host.Outcome.next.inj (hstep.symm.trans h)
    exact hresponses ▸ cycle_extends_responses e u

end Sys2Proof.Machine

/-! Runs of steps: latency, order and settling (70_reset_and_hazards.md rules R203 and R204). -/

namespace Sys2Proof.Machine

/-- After as many steps as it has places before it, what is in flight is on `y_raw`, whatever the events. -/
theorem run_shows_response_in_flight (y : Word) (before : List (Option Word)) :
    ∀ (s : State) (behind : List (Option Word)), s.pipe = before ++ some y :: behind →
      ∃ t, Host.Core.run Sys2Proof.core (before.length + 1) s = .next t ∧ t.yRaw = y := by
  induction before with
  | nil =>
    intro s behind hpipe
    obtain ⟨t, h⟩ := step_answers_next s
    exact ⟨t, run_succ 0 s t h, (step_of_due hpipe h).2.2 y rfl⟩
  | cons due before ih =>
    intro s behind hpipe
    obtain ⟨t, h⟩ := step_answers_next s
    obtain ⟨⟨e, hrest⟩, -⟩ := step_of_due hpipe h
    obtain ⟨u, hrun, hraw⟩ := ih t (behind ++ [e]) (by rw [hrest]; simp)
    exact ⟨u, (run_succ _ s t h).trans hrun, hraw⟩

/-- As many steps as the pipe has places deliver all that was in flight, in order. -/
theorem run_drains_pipe (places : List (Option Word)) :
    ∀ (s : State) (behind : List (Option Word)), s.pipe = places ++ behind → s.events = [] →
      ∃ t, Host.Core.run Sys2Proof.core places.length s = .next t ∧
        t.responses = s.responses ++ places.filterMap id ∧ t.position = s.position := by
  induction places with
  | nil => exact fun s behind _ _ => ⟨s, rfl, by simp, rfl⟩
  | cons due places ih =>
    intro s behind hpipe hevents
    obtain ⟨t, h⟩ := step_answers_next s
    obtain ⟨⟨e, hrest⟩, hdelivered, -⟩ := step_of_due hpipe h
    obtain ⟨-, hposition, htail⟩ := step_outstanding_of_no_request (by simp [hevents]) h
    obtain ⟨u, hrun, hresponses, hu⟩ :=
      ih t (behind ++ [e]) (by rw [hrest]; simp) (by rw [htail, hevents]; rfl)
    refine ⟨u, (run_succ _ s t h).trans hrun, ?_, hu.trans hposition⟩
    rw [hresponses, hdelivered]
    cases due <;> simp

/-- A stream of requests puts their responses behind all others, in order. -/
theorem run_requests (ws : List ReqWord) :
    ∀ s : State, s.tableLoaded = true → s.events = ws.map .request →
      ∃ t, (∀ k, Host.Core.run Sys2Proof.core (ws.length + k) s = Host.Core.run Sys2Proof.core k t) ∧
        t.events = [] ∧ t.pipe.length = s.pipe.length ∧ t.position = s.position + ws.length ∧
        t.outstanding = s.outstanding ++
          ws.map (fun w => respond s.cfg (decodeWord w).base2 (decodeWord w).operand) := by
  induction ws with
  | nil => exact fun s _ hevents => ⟨s, fun k => by simp, hevents, rfl, rfl, by simp⟩
  | cons w ws ih =>
    intro s hloaded hevents
    obtain ⟨t, h⟩ := step_answers_next s
    obtain ⟨hcfg, hkeep⟩ := step_keeps_configuration h
    obtain ⟨hout, hposition, hrest⟩ := step_outstanding_of_request hevents hloaded h
    obtain ⟨-, -, -, hlength⟩ := exec_frame ((step_request hevents).symm.trans h)
    obtain ⟨u, hrun, hu, hpipe, hcount, hresponses⟩ := ih t (hkeep hloaded) hrest
    refine ⟨u, fun k => ?_, hu, hpipe.trans hlength, ?_, ?_⟩
    · rw [List.length_cons, Nat.add_right_comm, run_succ _ s t h, hrun]
    · rw [hcount, hposition, List.length_cons]
      omega
    · rw [hresponses, hout, hcfg]
      simp

/-- Settles O46: the combinational form answers in the first step; in the registered form the response enters
the pipe behind `LATENCY - 1` places. -/
theorem responseComesLatencyCyclesLater : Obligations.ResponseComesLatencyCyclesLater := by
  intro s w rest hloaded hlatency hevents
  have hexec := step_request hevents
  rw [← hlatency]
  cases hpipe : s.pipe with
  | nil =>
    rw [exec_of_loaded_combinational (decodeWord w) { s with events := rest } hloaded hpipe] at hexec
    exact ⟨_, run_succ 0 s _ hexec, rfl⟩
  | cons due places =>
    obtain ⟨t, ht, hrest, -⟩ :=
      exec_of_due (decodeWord w) { s with events := rest } due places hloaded hpipe
    rw [ht] at hexec
    rw [List.length_cons, run_succ _ s t hexec]
    exact run_shows_response_in_flight _ places t [] hrest

/-- Settles O47: the requests' responses go behind those in flight, and the drain delivers them all. -/
theorem requestStreamIsAnsweredInOrder : Obligations.RequestStreamIsAnsweredInOrder := by
  intro s ws hloaded hlatency
  obtain ⟨t, hrun, hevents, hlength, hposition, hout⟩ :=
    run_requests ws { s with events := ws.map .request } hloaded rfl
  obtain ⟨u, hdrain, hresponses, hkeep⟩ := run_drains_pipe t.pipe t [] (by simp) hevents
  rw [hlength, hlatency] at hdrain
  exact ⟨u, (hrun _).trans hdrain, hresponses.trans hout, hkeep.trans hposition⟩

/-- A stable cycle after a change settles the combinational block on what is on its ports. -/
theorem step_settles {s : State} {rest : List PortEvent} (hevents : s.events = .idle :: rest)
    (hloaded : s.tableLoaded = true) (hpipe : s.pipe = []) (hphase : s.phase = .changing) :
    step s = .next { s with events := rest, phase := .settled, yRaw := respond s.cfg s.base2 s.xRaw } := by
  have hidle : s.events = [] ∨ ∃ rest, s.events = .idle :: rest := .inr ⟨rest, hevents⟩
  obtain ⟨t, h⟩ := step_answers_next s
  obtain ⟨-, -, -, -, hchanging, hsettled, -⟩ := step_idle_spec hidle h
  rw [h, hsettled hpipe ((hchanging hphase).1 hloaded), hevents]
  rfl

/-- A change leaves a loaded combinational block with nothing in flight, and the host with what it had. -/
theorem step_changing_combinational {s t : State} {w : ReqWord} {rest : List PortEvent}
    (hevents : s.events = .changing w :: rest) (hpipe : s.pipe = []) (h : step s = .next t) :
    t.pipe = [] ∧ t.responses = s.responses ∧ t.position = s.position ∧ t.events = rest := by
  obtain rfl := Host.Outcome.next.inj ((step_changing hevents).symm.trans h)
  refine ⟨List.eq_nil_of_length_eq_zero ?_, cycle_none_responses_combinational _ hpipe, cycle_position _ _,
    cycle_events _ _⟩
  exact (cycle_pipe_length _ _).trans (by simp [hpipe])

theorem run_changes_then_settles (ws : List ReqWord) (w : ReqWord) (rest : List PortEvent) :
    ∀ s : State, s.tableLoaded = true → s.pipe = [] →
      s.events = ws.map .changing ++ .changing w :: .idle :: rest →
      ∃ t, Host.Core.run Sys2Proof.core (ws.length + 2) s = .next t ∧
        t.yRaw = respond s.cfg w.mode w.operand ∧ t.phase = .settled ∧ t.responses = s.responses ∧
        t.position = s.position ∧ t.events = rest := by
  induction ws with
  | nil =>
    intro s hloaded hpipe hevents
    obtain ⟨t, h⟩ := step_answers_next s
    obtain ⟨hbase2, hraw, hphase, hload⟩ := step_changing_spec hevents h
    obtain ⟨hnil, hresponses, hposition, htail⟩ := step_changing_combinational hevents hpipe h
    have hsettle := step_settles htail (hload.trans hloaded) hnil hphase
    rw [(step_keeps_configuration h).1, hbase2, hraw] at hsettle
    exact ⟨_, (run_succ 1 s t h).trans (run_succ 0 t _ hsettle), rfl, rfl, hresponses, hposition, rfl⟩
  | cons v ws ih =>
    intro s hloaded hpipe hevents
    obtain ⟨t, h⟩ := step_answers_next s
    obtain ⟨hcfg, hkeep⟩ := step_keeps_configuration h
    obtain ⟨hnil, hresponses, hposition, htail⟩ := step_changing_combinational hevents hpipe h
    obtain ⟨u, hrun, hraw, hphase, hu, hcount, hleft⟩ := ih t (hkeep hloaded) hnil htail
    exact ⟨u, (run_succ _ s t h).trans hrun, hcfg ▸ hraw, hphase, hu.trans hresponses,
      hcount.trans hposition, hleft⟩

/-- Settles O49: each change leaves the block unsettled and the host without a response, and the stable cycle
drives the response to the last. -/
theorem changedInputsSettleOnceStable : Obligations.ChangedInputsSettleOnceStable := by
  intro s ws w rest hloaded hpipe hevents
  rw [decodeWord_base2, decodeWord_operand]
  exact run_changes_then_settles ws w rest s hloaded hpipe hevents

end Sys2Proof.Machine

/-! Denormals, and the rows that serve both modes alike (44_dispatcher.md rules R166 and R173). -/

namespace Sys2Proof.Machine

/-- Settles O16: a denormal has the exponent -126, below `NEG_E_MIN` and, by the premise, below
`POS_E_ONE`. -/
theorem denormalsGiveOne : Obligations.DenormalsGiveOne := by
  intro s x hloaded hexp hmant hside
  have hfin : rawExp x ≠ 255 := by rw [hexp]; decide
  have hzero : ¬ (classify x).isZero = true := fun h => hmant ((isZero_iff x).mp h).2
  have hE : rawE x = -126 := if_pos hexp
  obtain ⟨-, -, -, -, -, -, -, -, -, hnormals⟩ := (sound_iff s.cfg.params).mp s.cfg.sound
  refine both_answer_of_respond_eq hloaded fun b => ?_
  by_cases hsign : rawSign x = 1
  · rw [respond_of_negative s.cfg b x hsign hfin hzero, hE, if_pos hnormals]
    rfl
  · have hpos : rawSign x = 0 := by
      have hlt := x.isLt
      rw [rawSign] at hsign ⊢
      omega
    rw [respond_of_positive s.cfg b x hpos hfin hzero, hE, if_pos (hside.resolve_left hsign)]
    rfl

/-- Settles O35: only the datapath row reads the mode, and only window arguments reach it. -/
theorem specialRowsServeBothModes : Obligations.SpecialRowsServeBothModes := by
  intro c x hx
  unfold respond
  cases hrow : selectRow c.params (decompose x) with
  | window => exact absurd ((selectRow_window_iff c.params c.sound x).mp hrow) hx
  | nan | zero | posInf | negInf | posSmall | posLarge | posPlaceholder | negSmall | negLarge => rfl

end Sys2Proof.Machine

/-! What a configuration is admitted for (00_scope.md rules R12 and R13, 42_lut_poly_evaluator.md rule R131,
60_exceptions.md rule R180). -/

namespace Sys2Proof.Machine

open Sys2Proof.Target

/-- Parameters and a table are built into a configuration that holds just them, or refused. -/
theorem build_ok_iff (p : Params) (m : Memory) :
    (∃ c, Configuration.build p m = .ok c ∧ c.params = p ∧ c.table = m) ↔
      Params.sound p = true ∧ Memory.admitted p m = true := by
  constructor
  · rintro ⟨c, -, rfl, rfl⟩
    exact ⟨c.sound, c.admitted⟩
  · rintro ⟨hsound, hadmitted⟩
    exact ⟨⟨p, m, hsound, hadmitted⟩,
      by rw [Configuration.build, dif_pos hsound, dif_pos hadmitted], rfl, rfl⟩

theorem build_error_iff (p : Params) (m : Memory) :
    (∃ r, Configuration.build p m = .error r) ↔
      ¬ (Params.sound p = true ∧ Memory.admitted p m = true) := by
  rw [Configuration.build]
  split_ifs with hsound hadmitted
  · simp [hsound, hadmitted]
  · simp [hadmitted]
  · simp [hsound]

/-- Settles O7: an instruction and a step each answer one cycle, and `build` has no other test than the
two. -/
theorem noStepFaultsOrRefuses : Obligations.NoStepFaultsOrRefuses :=
  ⟨step_answers_next, exec_answers_next, build_error_iff⟩

/-- The constraints in plain arithmetic: those on `INT_W` and on the rounding shift follow from the formulas
of the derived widths. -/
theorem sound_iff_parameters (p : Params) : Params.sound p = true ↔
    1 ≤ p.lutAddrW ∧ (p.lutAddrW : Int) ≤ 7 + p.fLog2e - p.negEMin ∧ 1 ≤ p.wCoeff ∧
      p.iCoeff ≤ p.wCoeff ∧ 1 ≤ p.fLog2e ∧ p.negEMin < 0 ∧ 0 ≤ p.negEMax ∧
      p.log2eFx < 2 ^ (p.fLog2e + 1) ∧ -126 < p.negEMin := by
  have hshift : p.negEMin < 0 → 1 ≤ polyF p - mW := by
    rw [polyF_eq, fracW, prodF]
    simp only [mW]
    omega
  have hindex : p.negEMin < 0 →
      (p.lutAddrW ≤ fracW p ↔ (p.lutAddrW : Int) ≤ 7 + p.fLog2e - p.negEMin) := by
    rw [fracW, prodF]
    simp only [mW]
    omega
  have hinteger : p.negEMax + 2 ≤ (intW p : Int) := by
    rw [intW]
    omega
  rw [sound_iff]
  simp only [eMinN]
  constructor
  · rintro ⟨haddr, hfrac, hcoeff, hint, hlog, ⟨hmin, hmax⟩, -, -, hfits, hnormals⟩
    exact ⟨haddr, (hindex hmin).mp hfrac, hcoeff, hint, hlog, hmin, hmax, hfits, hnormals⟩
  · rintro ⟨haddr, hfrac, hcoeff, hint, hlog, hmin, hmax, hfits, hnormals⟩
    exact ⟨haddr, (hindex hmin).mpr hfrac, hcoeff, hint, hlog, ⟨hmin, hmax⟩, hinteger, hshift hmin, hfits,
      hnormals⟩

theorem memory_admitted_iff (p : Params) (m : Memory) : Memory.admitted p m = true ↔
    m.length = lutSize p ∧ ∀ j e, m[j]? = some e → e < 2 ^ (2 * p.wCoeff) ∧ EntryAdmitted p j e := by
  have hwidth : (∀ e ∈ m, e < 2 ^ (2 * p.wCoeff)) ↔
      ∀ (j e : Nat), m[j]? = some e → e < 2 ^ (2 * p.wCoeff) := by
    simp only [List.mem_iff_getElem?]
    exact ⟨fun h j e he => h e ⟨j, he⟩, fun h e ⟨j, he⟩ => h j e he⟩
  simp only [Memory.admitted, Memory.wf, Bool.and_eq_true, decide_eq_true_eq, List.all_eq_true,
    admittedFrom_iff, Nat.zero_add, hwidth]
  exact ⟨fun ⟨⟨hlen, hwid⟩, hadm⟩ => ⟨hlen, fun j e he => ⟨hwid j e he, hadm j e he⟩⟩,
    fun ⟨hlen, h⟩ => ⟨⟨hlen, fun j e he => (h j e he).1⟩, fun j e he => (h j e he).2⟩⟩

/-- The condition on an entry of the right width, on the halves of its number. -/
theorem entryAdmitted_iff (p : Params) (hw : 1 ≤ p.wCoeff) (j e : Nat) (he : e < 2 ^ (2 * p.wCoeff)) :
    EntryAdmitted p j e ↔
      (e % 2 ^ p.wCoeff) * ((2 ^ p.lutAddrW - j) * 2 ^ (fracW p - p.lutAddrW) - 1) <
          e / 2 ^ p.wCoeff * 2 ^ fracW p ∧
        e % 2 ^ p.wCoeff < 2 ^ (p.wCoeff - p.iCoeff) ∧ e / 2 ^ p.wCoeff < 2 ^ (p.wCoeff - p.iCoeff) := by
  rw [EntryAdmitted, entrySlope_eq_mod p hw, entryIntercept_eq_div p hw e he, segmentTop, lutSize, fCoeff]

/-- Settles O36: the two tests of `build`, each spelled out. -/
theorem onlyWellFormedConfigurationsAreBuilt : Obligations.OnlyWellFormedConfigurationsAreBuilt := by
  intro p m
  rw [build_ok_iff, sound_iff_parameters, memory_admitted_iff]
  refine and_congr_right fun ⟨_, _, hw, _⟩ => and_congr_right fun _ => ?_
  exact forall₂_congr fun j e => forall_congr' fun _ =>
    and_congr_right fun he => entryAdmitted_iff p hw j e he

/-- Settles O37: the formulas are evaluated at the reference parameters. -/
theorem referenceWidths : Obligations.ReferenceWidths := by
  unfold Obligations.ReferenceWidths
  decide

end Sys2Proof.Machine

/-! The evaluator and the rounder (42_lut_poly_evaluator.md rule R131, 43_rounder_normalizer.md rules R145 to
R148). -/

namespace Sys2Proof.Machine

open Sys2Proof.Target

theorem lineValue_eq (p : Params) (a b frac : Nat) :
    lineValue p a b frac = (b : Int) * 2 ^ fracW p - a * frac := by
  simp [lineValue, shl]

/-- Settles O26: the selected line has a positive value, so its slope's product stays below the intercept. -/
theorem admittedLinesStayPositive : Obligations.AdmittedLinesStayPositive := by
  intro c frac hf
  obtain ⟨a, b, res, hrom, hline, hpos, -⟩ := polyEval_normalizes c frac hf
  have hvalue := lineValue_eq c.params a b frac
  refine ⟨a, b, hrom, ?_, hvalue, (polyEval_pzero_and_polyExp c frac hf).1⟩
  zify
  omega

/-- Settles O28: RNE_PACK is correct rounding. -/
theorem rnePackRoundsToNearestEven : Obligations.RnePackRoundsToNearestEven :=
  fun p mant e hsound hlow hhigh hcls => rnePack_isNearestEven p hsound mant e hlow hhigh hcls

theorem packSubnormal_zero (e : Int) : packSubnormal 0 e = { cls := .zero, finalExp := e, kept := 0 } := rfl

theorem packSubnormal_promoted (e : Int) :
    packSubnormal 128 e = { cls := .normal, finalExp := eMinN, kept := 128 } := rfl

theorem packSubnormal_of_lt (k : Nat) (e : Int) (hpos : 0 < k) (hlt : k < 128) :
    packSubnormal k e = { cls := .subnormal, finalExp := eMinN, kept := k } := by
  have htop : ¬ k = 2 ^ mW := hlt.ne
  rw [packSubnormal, if_neg hpos.ne', if_neg htop]

/-- Settles O29: the range of the rounded significand parts the cases, and each is one case of the packing. -/
theorem rnePackClassifiesItsResult : Obligations.RnePackClassifiesItsResult := by
  intro p mant e hsound hlow hhigh
  obtain ⟨hsubnormal, hnormal⟩ := roundedKept_range p hsound mant e hlow hhigh
  dsimp only
  rw [rnePack]
  generalize roundedKept p mant e = k at *
  refine ⟨fun he => ?_, fun he => ?_⟩
  · rw [if_pos he]
    refine ⟨hsubnormal he, ?_, fun hpos hlt => packSubnormal_of_lt k e hpos hlt, ?_⟩
    · rintro rfl
      exact packSubnormal_zero e
    · rintro rfl
      exact ⟨packSubnormal_promoted e, by rw [packSubnormal_promoted]; decide⟩
  · obtain ⟨hk, hcarry⟩ := hnormal he
    rw [if_neg (not_lt.mpr he)]
    refine ⟨hk, hcarry, fun hlt hexp => ?_, ?_, fun hover => ?_⟩
    · rw [packNormal_of_lt k e hlt, if_neg (not_lt.mpr hexp)]
    · rintro rfl hexp
      rw [packNormal_carry, if_neg (not_lt.mpr hexp)]
    · have hcls : (packNormal k e).cls = .inf := by
        obtain ⟨hlt, hexp⟩ | ⟨rfl, hexp⟩ := hover
        · rw [packNormal_of_lt k e hlt]
          exact if_pos hexp
        · rw [packNormal_carry]
          exact if_pos hexp
      exact ⟨hcls, floatReco_inf _ hcls⟩

end Sys2Proof.Machine

/-! The datapath as a whole: its results and the widths of its working values (10_state.md rules R24 to R27,
43_rounder_normalizer.md rule R152, 44_dispatcher.md rule R171, 95_test_vectors.md scenario S5). -/

namespace Sys2Proof.Machine

open Sys2Proof.Target

/-- What every window argument hands to the rounder: a normalized mantissa and an exponent below 0. -/
theorem datapath_rounds (c : Configuration) (b : Bool) (x : Word) (hx : InWindow c.params x) :
    let r := rangeReduce c.params (decompose x) b
    let v := polyEval c.params c.table r.frac
    2 ^ polyF c.params ≤ v.mant ∧ v.mant < 2 ^ (polyF c.params + 1) ∧ -(accF c.params : Int) ≤ v.polyExp ∧
      v.polyExp ≤ -1 ∧ roundNormalize c.params v r.bias = rnePack c.params v.mant (v.polyExp - r.bias) ∧
      respond c b x = floatReco (rnePack c.params v.mant (v.polyExp - r.bias)) := by
  have hfrac := rangeReduce_frac_lt c.params c.sound x b hx
  rw [respond_window c b x hx, datapath]
  generalize rangeReduce c.params (decompose x) b = r at *
  obtain ⟨-, -, -, hlow, hhigh, -, hleast, -⟩ := normalizationIsExact c r.frac hfrac
  obtain ⟨hpzero, hexp⟩ := polyEval_pzero_and_polyExp c r.frac hfrac
  have hround := roundNormalize_of_pzero_eq_false c.params (polyEval c.params c.table r.frac) r.bias hpzero
  exact ⟨hlow, hhigh, hleast, hexp, hround, congrArg floatReco hround⟩

/-- A result's exponent is that of the exact value, the least normal one, or one more by a carry. -/
theorem rnePack_finalExp_bounds (p : Params) (mant : Nat) (e : Int) :
    e ≤ (rnePack p mant e).finalExp ∧ (rnePack p mant e).finalExp ≤ packExp e + 1 := by
  rw [rnePack, packExp]
  split_ifs with he
  · rw [packSubnormal]
    split_ifs <;> dsimp only <;> omega
  · simp only [packNormal]
    split_ifs <;> omega

theorem rnePack_kept_le (p : Params) (mant : Nat) (e : Int) :
    (rnePack p mant e).kept ≤ roundedKept p mant e := by
  rw [rnePack]
  split_ifs
  · rw [packSubnormal]
    split_ifs <;> dsimp only <;> omega
  · simp only [packNormal, shr]
    split_ifs
    · exact Nat.div_le_self _ _
    · exact le_rfl

/-- A carry-out reaches 256 and no more. -/
theorem roundedKept_le (p : Params) (h : Params.sound p = true) (mant : Nat) (e : Int)
    (hlow : 2 ^ polyF p ≤ mant) (hhigh : mant < 2 ^ (polyF p + 1)) : roundedKept p mant e ≤ 256 := by
  obtain ⟨hsubnormal, hnormal⟩ := roundedKept_range p h mant e hlow hhigh
  by_cases he : e < eMinN
  · exact (hsubnormal he).trans (by norm_num)
  · exact (hnormal (not_lt.mp he)).2

/-- Settles O31: a value below 1 rounds to 1 at most, for its exponent is below 0 before the carry. -/
theorem datapathResultsAreAtMostOne : Obligations.DatapathResultsAreAtMostOne := by
  intro c b x hx
  obtain ⟨hlow, hhigh, -, hexp, hround, hrespond⟩ := datapath_rounds c b x hx
  dsimp only
  rw [hround, hrespond]
  generalize rangeReduce c.params (decompose x) b = r at *
  generalize polyEval c.params c.table r.frac = v at *
  have he : packExp (v.polyExp - r.bias) ≤ -1 := max_le (by omega) (by decide)
  have hcls := rnePack_cls_ne_inf c.params v.mant (v.polyExp - r.bias) (by simp only [eMaxN]; omega)
  obtain ⟨-, hfinal⟩ := rnePack_finalExp_bounds c.params v.mant (v.polyExp - r.bias)
  obtain ⟨hword, -⟩ := toNat_floatReco_rnePack c.params c.sound v.mant _ hlow hhigh hcls
  have hkept := roundedKept_le c.params c.sound v.mant (v.polyExp - r.bias) hlow hhigh
  refine ⟨hcls, by omega, ?_⟩
  rw [hword]
  omega

/-! The widths of the working values. -/

theorem lt_two_pow_bitLength (n : Nat) : n < 2 ^ bitLength n := by
  rw [bitLength]
  split_ifs with h
  · rw [h]
    decide
  · exact Nat.lt_log2_self

/-- The least signed width of a range holds every integer of it (00_scope.md rule R12). -/
theorem fitsS_signedWidth {lo hi v : Int} (hneg : lo < 0) (hlow : lo ≤ v) (hhigh : v ≤ hi) :
    fitsS (signedWidth lo hi) v := by
  have hwidth : signedWidth lo hi - 1 = max (bitLength (-lo - 1).toNat) (bitLength hi.toNat) :=
    Nat.add_sub_cancel_left _ _
  have hbelow : (-lo - 1).toNat < 2 ^ (signedWidth lo hi - 1) :=
    (lt_two_pow_bitLength _).trans_le (Nat.pow_le_pow_right two_pos (hwidth ▸ le_max_left _ _))
  have habove : hi.toNat < 2 ^ (signedWidth lo hi - 1) :=
    (lt_two_pow_bitLength _).trans_le (Nat.pow_le_pow_right two_pos (hwidth ▸ le_max_right _ _))
  zify at hbelow habove
  rw [fitsS]
  omega

theorem decompose_exponent_bounds (w : Word) :
    -127 ≤ (decompose w).unbiasedExponent ∧ (decompose w).unbiasedExponent ≤ 128 := by
  rw [decompose_exponent]
  split_ifs <;> omega

/-- The coefficients, the products and the line value of the evaluator fit their registers
(42_lut_poly_evaluator.md rules R122 to R124 and R126). -/
theorem selected_line_widths (c : Configuration) (frac : Nat) (hf : frac < 2 ^ fracW c.params) :
    ∃ slope intercept, rom c.params c.table (mirroredIndex c.params frac) = some (slope, intercept) ∧
      fitsU c.params.wCoeff slope ∧ fitsU c.params.wCoeff intercept ∧
      fitsU (axW c.params) (slope * frac) ∧
      fitsU (c.params.wCoeff + fracW c.params) (shl intercept (fracW c.params)) ∧
      fitsS (accW c.params) (lineValue c.params slope intercept frac) ∧
      msb (lineValue c.params slope intercept frac).toNat ≤ c.params.wCoeff + fracW c.params - 1 := by
  obtain ⟨a, b, hrom, ha, hb, hpos, hlt⟩ := selected_line c frac hf
  have hcoeff : 2 ^ fCoeff c.params ≤ 2 ^ c.params.wCoeff := Nat.pow_le_pow_right two_pos (Nat.sub_le _ _)
  have hline : (lineValue c.params a b frac).toNat < 2 ^ (c.params.wCoeff + fracW c.params) := by
    have hacc : 2 ^ accF c.params ≤ 2 ^ (c.params.wCoeff + fracW c.params) :=
      Nat.pow_le_pow_right two_pos (accF_le_wCoeff_add_fracW c.params)
    omega
  have hsigned : (lineValue c.params a b frac).toNat < 2 ^ (accW c.params - 1) := by
    rw [accW_eq]
    exact hline.trans_le (Nat.pow_le_pow_right two_pos (by omega))
  refine ⟨a, b, hrom, ha.trans_le hcoeff, hb.trans_le hcoeff, ?_, ?_, ?_, ?_⟩
  · rw [axW, fitsU, pow_add]
    exact Nat.mul_lt_mul'' (ha.trans_le hcoeff) hf
  · rw [shl, fitsU, pow_add]
    exact Nat.mul_lt_mul_of_pos_right (hb.trans_le hcoeff) (by positivity)
  · zify at hsigned
    rw [fitsS]
    omega
  · exact Nat.le_sub_one_of_lt (msb_lt _ _ (by omega) hline)

theorem polyOutW_eq (p : Params) : polyOutW p = polyF p + 1 := by
  rw [polyF_eq, polyOutW, accW_eq]

/-- Settles O32: each stage's value by the stage's own bound, the signed ones by the ranges that give
`PEXP_W` and `FEXP_W`. -/
theorem workingValuesFitTheirWidths : Obligations.WorkingValuesFitTheirWidths := by
  intro c b x hx
  obtain ⟨hlow, hhigh, hleast, hexp, hround, -⟩ := datapath_rounds c b x hx
  have hfrac := rangeReduce_frac_lt c.params c.sound x b hx
  have hbias := rangeReduce_bias_lt c.params c.sound x b hx
  obtain ⟨-, hindex⟩ := lutIndex_eq c.params c.sound _ hfrac
  dsimp only
  rw [hround]
  refine ⟨decompose_exponent_bounds x, significand_lt x, multiplier_lt c.params c.sound b,
    product_lt c.params c.sound x b, aligned_lt c.params c.sound x b hx, hbias, hfrac, hindex,
    mirroredIndex_lt c.params _, selected_line_widths c _ hfrac, ?_⟩
  generalize rangeReduce c.params (decompose x) b = r at *
  generalize polyEval c.params c.table r.frac = v at *
  have hkept : roundedKept c.params v.mant (v.polyExp - r.bias) < 2 ^ (mW + 2) :=
    (roundedKept_le c.params c.sound v.mant _ hlow hhigh).trans_lt (by decide)
  have hfinal := rnePack_finalExp_bounds c.params v.mant (v.polyExp - r.bias)
  have haccF : 0 < accF c.params := Nat.add_pos_right _ (fracW_pos c.params c.sound)
  have hpow : (r.bias : Int) < 2 ^ intW c.params := by exact_mod_cast hbias
  have hpack : packExp (v.polyExp - r.bias) ≤ -1 := max_le (by omega) (by decide)
  refine ⟨by rwa [fitsU, polyOutW_eq], fitsS_signedWidth (by omega) hleast (by omega),
    fitsS_signedWidth (by omega) (by omega) (by simp only [eMaxN]; omega), Nat.le_add_right _ _, hkept,
    fitsS_signedWidth (by omega) (by omega) (by simp only [eMaxN]; omega),
    (rnePack_kept_le c.params v.mant _).trans_lt hkept⟩

/-! Underflow of natural mode with the reference parameters. -/

/-- A value below half the least positive BF16 value rounds to 0. -/
theorem roundedKept_eq_zero (p : Params) (h : Params.sound p = true) (mant : Nat) (e : Int)
    (hhigh : mant < 2 ^ (polyF p + 1)) (he : e < -134) : roundedKept p mant e = 0 := by
  have hshift := roundShift_cast p h e
  have hsmall : 2 * mant < 2 ^ roundShift p e := by
    calc 2 * mant < 2 * 2 ^ (polyF p + 1) := by omega
      _ = 2 ^ (polyF p + 2) := by ring
      _ ≤ 2 ^ roundShift p e := Nat.pow_le_pow_right two_pos (by
        rw [packExp, max_eq_right (by simp only [eMinN]; omega)] at hshift
        simp only [mW, eMinN] at hshift
        omega)
  have hlt : mant < 2 ^ roundShift p e := by omega
  rw [roundedKept_eq p mant e (one_le_roundShift p h e), Nat.div_eq_of_lt hlt, Nat.mod_eq_of_lt hlt,
    if_neg (by omega)]

theorem respond_eq_zero_of_bias (c : Configuration) (b : Bool) (x : Word) (hx : InWindow c.params x)
    (hbias : 134 ≤ (rangeReduce c.params (decompose x) b).bias) : respond c b x = 0x0000#16 := by
  obtain ⟨-, hhigh, -, hexp, -, hrespond⟩ := datapath_rounds c b x hx
  rw [hrespond]
  generalize rangeReduce c.params (decompose x) b = r at *
  generalize polyEval c.params c.table r.frac = v at *
  have he : v.polyExp - r.bias < -134 := by omega
  rw [rnePack, if_pos (by simp only [eMinN]; omega), roundedKept_eq_zero c.params c.sound _ _ hhigh he]
  rfl

/-- The arguments from -93 down to the end of the window have the exponent 6 and a mantissa of at least
`0x3A`, or the exponent 7. -/
theorem reference_bias_ge (x : Word) (hlow : 0xC2BA ≤ x.toNat) (hhigh : x.toNat ≤ 0xC37F) :
    InWindow Params.reference x ∧ 134 ≤ (rangeReduce Params.reference (decompose x) false).bias := by
  have hnormal : (classify x).isNormal = true := (isNormal_iff x).mpr (by omega)
  have hexp := decompose_exponent x
  rw [if_neg (by omega)] at hexp
  have hx : InWindow Params.reference x := by
    refine ⟨(signField_iff x).mpr (by omega), hnormal, ?_⟩
    rw [hexp, reference_negEMin, reference_negEMax]
    omega
  refine ⟨hx, ?_⟩
  have hshift : ((decompose x).unbiasedExponent - -9).toNat = x.toNat / 128 % 256 - 118 := by omega
  rw [(rangeReduce_spec _ reference_sound x false hx).1, aligned_eq_mul, significand_normal x hnormal,
    multiplier_false, reference_log2eFx, reference_negEMin, reference_fracW, hshift,
    Nat.le_div_iff_mul_le (by positivity)]
  obtain hfield | hfield : x.toNat / 128 % 256 = 133 ∨ x.toNat / 128 % 256 = 134 := by omega
  all_goals
    rw [hfield]
    norm_num
    omega

/-- Settles O33: from -93 down the bias is at least 134, which leaves a value below half the least positive
one. -/
theorem naturalModeUnderflowsFromMinus93 : Obligations.NaturalModeUnderflowsFromMinus93 := by
  intro s x hloaded hparams hlow hhigh
  obtain ⟨hx, hbias⟩ := reference_bias_ge x hlow hhigh
  rw [← hparams] at hx hbias
  rw [answers_iff_of_loaded _ s _ hloaded]
  exact (respond_eq_zero_of_bias s.cfg false x hx hbias).symm

/-! EXP2 of -1.0 with the reference parameters. -/

/-- The bias is 1 and the fraction 0, which reads the last entry. -/
theorem rangeReduce_minusOne :
    rangeReduce Params.reference (decompose 0xBF80#16) true = { bias := 1, frac := 0 } ∧
      mirroredIndex Params.reference 0 = 63 := by
  decide

/-- At the fraction 0 the line's value is its intercept. -/
theorem polyEval_at_zero (c : Configuration) (hparams : c.params = Params.reference) (e : Nat)
    (he : c.table[63]? = some e) :
    0 < e / 2 ^ 16 ∧ e / 2 ^ 16 < 2 ^ 16 ∧
      polyEval c.params c.table 0 = normalizeLine Params.reference (e / 2 ^ 16 * 2 ^ 32) := by
  obtain ⟨a, b, res, hrom, hline, hpos, hlt, heval⟩ := polyEval_normalizes c 0 (by positivity)
  obtain ⟨e', he', hentry⟩ := rom_of_lt_lutSize c 63 (by rw [hparams]; decide)
  obtain rfl : e' = e := Option.some.inj (he'.symm.trans he)
  rw [heval]
  rw [hparams, rangeReduce_minusOne.2, ← hparams, hentry, hparams] at hrom
  obtain ⟨-, rfl⟩ := Prod.mk.inj (Option.some.inj hrom)
  rw [hparams, lineValue_eq, reference_wCoeff, reference_fracW] at hline
  rw [hparams, reference_accF] at hlt
  obtain rfl : res = e' / 2 ^ 16 * 2 ^ 32 := by
    zify
    omega
  exact ⟨by omega, by omega, by rw [hparams]⟩

/-- The number of the response, by the position of the line value's top bit. -/
theorem toNat_respond_minusOne (c : Configuration) (hparams : c.params = Params.reference) (e : Nat)
    (he : c.table[63]? = some e) :
    let res := e / 2 ^ 16 * 2 ^ 32
    let k := roundedKept Params.reference (res * 2 ^ (49 - msb res)) ((msb res : Int) - 49)
    (respond c true 0xBF80#16).toNat = (msb res + 77) * 128 + k ∧ 128 ≤ k ∧ k ≤ 256 := by
  have hx : InWindow c.params 0xBF80#16 := by
    rw [hparams]
    exact ⟨by decide, by decide, by decide, by decide⟩
  obtain ⟨hpos, hlt, heval⟩ := polyEval_at_zero c hparams e he
  obtain ⟨hlow, hhigh, -, hexp, -, hrespond⟩ := datapath_rounds c true _ hx
  have hreduce := rangeReduce_minusOne.1
  rw [← hparams] at hreduce
  rw [hreduce, heval, hparams, normalizeLine_mant, normalizeLine_polyExp, reference_accF,
    reference_polyF] at hrespond
  rw [hreduce, heval, hparams, normalizeLine_mant, reference_polyF] at hlow hhigh
  rw [hreduce, heval, normalizeLine_polyExp, reference_accF] at hexp
  have hE : (msb (e / 2 ^ 16 * 2 ^ 32) : Int) - (48 : Nat) - (1 : Nat) =
      (msb (e / 2 ^ 16 * 2 ^ 32) : Int) - 49 := by omega
  rw [hE] at hrespond
  dsimp only
  generalize msb (e / 2 ^ 16 * 2 ^ 32) = m at *
  have hcls := rnePack_cls_ne_inf Params.reference (e / 2 ^ 16 * 2 ^ 32 * 2 ^ (49 - m)) ((m : Int) - 49)
    (by simp only [eMaxN]; omega)
  obtain ⟨hword, -⟩ := toNat_floatReco_rnePack Params.reference reference_sound _ _ hlow hhigh hcls
  obtain ⟨-, hnormal⟩ := roundedKept_range Params.reference reference_sound _ ((m : Int) - 49) hlow hhigh
  rw [packExp, max_eq_left (by simp only [eMinN]; omega)] at hword
  refine ⟨?_, hnormal (by simp only [eMinN]; omega)⟩
  rw [hrespond, hword]
  omega

/-- An intercept of 16 bits rounds up to a power of two from `0xFF80` on: half a unit of the kept mantissa is
`2 ^ 7` units of the intercept, and the tie at `0xFF80` goes up to the even one. -/
theorem roundedKept_of_top_intercept (b : Nat) (hlow : 2 ^ 15 ≤ b) (hhigh : b < 2 ^ 16) :
    roundedKept Params.reference (b * 2 ^ 32 * 2 ^ 2) (-2) = 256 ↔ 0xFF80 ≤ b := by
  have hshift : roundShift Params.reference (-2) = 42 := by decide
  rw [roundedKept_eq _ _ _ (one_le_roundShift _ reference_sound _), hshift]
  split_ifs <;> omega

/-- Settles O34: 0.5 is reached only by a carry out of the largest exponent an intercept of 16 bits has. -/
theorem minusOneGivesHalfForARoundedIntercept : Obligations.MinusOneGivesHalfForARoundedIntercept := by
  intro s e hloaded hparams he
  rw [answers_iff_of_loaded _ s _ hloaded]
  show 0x3F00#16 = respond s.cfg true 0xBF80#16 ↔ _
  obtain ⟨hpos, hlt, -⟩ := polyEval_at_zero s.cfg hparams e he
  obtain ⟨hword, hk, hcarry⟩ := toNat_respond_minusOne s.cfg hparams e he
  obtain ⟨hmsb, hnext⟩ := msb_bounds (e / 2 ^ 16 * 2 ^ 32) (by omega)
  have hm : msb (e / 2 ^ 16 * 2 ^ 32) < 48 := msb_lt _ _ (by omega) (by omega)
  rw [← BitVec.toNat_inj, hword]
  have hhalf : (0x3F00#16).toNat = 16128 := rfl
  obtain htop | hbelow : msb (e / 2 ^ 16 * 2 ^ 32) = 47 ∨ msb (e / 2 ^ 16 * 2 ^ 32) < 47 := by omega
  · have hround := roundedKept_of_top_intercept (e / 2 ^ 16) (by rw [htop] at hmsb; omega) hlt
    rw [← hround, hhalf, htop]
    norm_num
    omega
  · have hsmall : e / 2 ^ 16 * 2 ^ 32 < 2 ^ 47 := hnext.trans_le (Nat.pow_le_pow_right two_pos hbelow)
    omega

end Sys2Proof.Machine

/-! The acceptance checks of a table (42_lut_poly_evaluator.md rule R133): they run over the negative words by
magnitude, in which the window is an interval and the values fall. -/

namespace Sys2Proof.Machine

open Sys2Proof.Target

/-! The negative words. -/

/-- The negative word of magnitude number `k`, as the checks write it. -/
abbrev negWord (k : Nat) : Word := BitVec.ofNat 16 (0x8000 + k)

theorem toNat_negWord (k : Nat) (hk : k < 0x8000) : (negWord k).toNat = 0x8000 + k := by
  rw [negWord, BitVec.toNat_ofNat]
  omega

theorem exists_eq_negWord (x : Word) (h : signField x = true) : ∃ k < 0x8000, x = negWord k := by
  have hlt := x.isLt
  have hneg := (signField_iff x).mp h
  refine ⟨x.toNat - 0x8000, by omega, BitVec.eq_of_toNat_eq ?_⟩
  rw [toNat_negWord _ (by omega)]
  omega

/-- The magnitude numbers of the window. -/
def windowIndices (p : Params) : Set Nat := {k | k < 0x8000 ∧ InWindow p (negWord k)}

theorem mem_windowIndices_iff (p : Params) (h : Params.sound p = true) (k : Nat) (hk : k < 0x8000) :
    k ∈ windowIndices p ↔ windowWord p k = true := by
  rw [windowWord, decide_eq_true_eq, selectRow_window_iff p h]
  exact and_iff_right hk

/-- A statement about every window argument is one about every magnitude number of the window. -/
theorem forall_inWindow_iff (p : Params) (P : Word → Prop) :
    (∀ x, InWindow p x → P x) ↔ ∀ k ∈ windowIndices p, P (negWord k) := by
  refine ⟨fun h k hk => h _ hk.2, fun h x hx => ?_⟩
  obtain ⟨k, hk, rfl⟩ := exists_eq_negWord x hx.1
  exact h k ⟨hk, hx⟩

theorem mem_windowIndices_iff_expField (p : Params) (k : Nat) :
    k ∈ windowIndices p ↔ (128 ≤ k ∧ k < 255 * 128) ∧ p.negEMin ≤ (k / 128 : Nat) - (127 : Int) ∧
      (k / 128 : Nat) - (127 : Int) ≤ p.negEMax := by
  have hword (hk : k < 0x8000) : InWindow p (negWord k) ↔ (128 ≤ k ∧ k < 255 * 128) ∧
      p.negEMin ≤ (decompose (negWord k)).unbiasedExponent ∧
      (decompose (negWord k)).unbiasedExponent ≤ p.negEMax := by
    rw [InWindow, decompose_sign, signField_iff, decompose_hiddenBit, isNormal_iff, toNat_negWord k hk]
    omega
  have hexp (hk : 128 ≤ k ∧ k < 255 * 128) :
      (decompose (negWord k)).unbiasedExponent = (k / 128 : Nat) - (127 : Int) := by
    rw [decompose_exponent, toNat_negWord k (by omega), if_neg (by omega)]
    omega
  constructor
  · rintro ⟨hk, hx⟩
    obtain ⟨hrange, hbounds⟩ := (hword hk).mp hx
    exact ⟨hrange, hexp hrange ▸ hbounds⟩
  · rintro ⟨hrange, hbounds⟩
    have hk : k < 0x8000 := by omega
    exact ⟨hk, (hword hk).mpr ⟨hrange, (hexp hrange).symm ▸ hbounds⟩⟩

/-- The window is an interval of magnitude numbers. -/
theorem ordConnected_windowIndices (p : Params) : (windowIndices p).OrdConnected := by
  refine ⟨fun i hi j hj k ⟨hik, hkj⟩ => ?_⟩
  rw [mem_windowIndices_iff_expField] at hi hj ⊢
  have hlow := Nat.div_le_div_right (c := 128) hik
  have hhigh := Nat.div_le_div_right (c := 128) hkj
  omega

/-! Bounded error. -/

theorem boundedErrorCheck_iff (c : Configuration) (ulpBound : ℚ) :
    boundedErrorCheck c ulpBound = true ↔ ∀ k ∈ windowIndices c.params, ∀ base2,
      ErrorWithin ulpBound (respond c base2 (negWord k)) (doubleReference base2 (negWord k)) := by
  simp only [boundedErrorCheck, List.all_eq_true, List.mem_range, Bool.or_eq_true, Bool.not_eq_true',
    ← Bool.not_eq_true, ← imp_iff_not_or, decide_eq_true_eq]
  constructor
  · intro h k hk base2
    exact h k hk.1 ((mem_windowIndices_iff _ c.sound k hk.1).mp hk) base2 (by cases base2 <;> simp)
  · intro h k hlt hk base2 _
    exact h k ((mem_windowIndices_iff _ c.sound k hlt).mpr hk) base2

/-- Settles O50: the check's magnitude numbers are those of the window, and its modes are all. -/
theorem exhaustiveCheckDecidesBoundedError : Obligations.ExhaustiveCheckDecidesBoundedError := by
  intro c ulpBound
  rw [boundedErrorCheck_iff, ← forall_inWindow_iff c.params fun x => ∀ base2,
    ErrorWithin ulpBound (respond c base2 x) (doubleReference base2 x)]
  exact ⟨fun h base2 x hx => h x hx base2, fun h x hx base2 => h base2 x hx⟩

/-! The order of values. -/

/-- The next word has the next multiple of the grid: a carry leaves its value alone. -/
theorem wordValue_lt_of_toNat_succ {u v : Word} (hnext : v.toNat = u.toNat + 1) (hfin : v.toNat < 255 * 128) :
    wordValue u < wordValue v := by
  obtain ⟨E, k, hE, hnum, hk, hhidden⟩ : ∃ (E : Int) (k : Nat), eMinN ≤ E ∧
      u.toNat = (E + 126).toNat * 128 + k ∧ k < 256 ∧ (eMinN < E → 128 ≤ k) := by
    simp only [eMinN]
    by_cases hsub : u.toNat < 128
    · exact ⟨-126, u.toNat, by omega, by omega, by omega, by omega⟩
    · exact ⟨(u.toNat / 128 : Nat) - (127 : Int), u.toNat % 128 + 128, by omega, by omega, by omega,
        by omega⟩
  rw [wordValue_of_toNat_eq u E k hE hnum (by omega) hk.le hhidden,
    wordValue_of_toNat_eq v E (k + 1) hE (by omega) hfin hk fun h => (hhidden h).trans (Nat.le_succ k)]
  have hpos := gridUnit_pos E
  push_cast
  linarith

theorem strictMonoOn_wordValue :
    StrictMonoOn (fun n => wordValue (BitVec.ofNat 16 n)) (Set.Iio (255 * 128)) := by
  refine strictMonoOn_of_lt_add_one Set.ordConnected_Iio fun n _ _ hn => ?_
  rw [Set.mem_Iio] at hn
  apply wordValue_lt_of_toNat_succ <;> simp only [BitVec.toNat_ofNat] <;> omega

/-- Positive finite words have the order of their numbers. -/
theorem wordValue_le_iff {u v : Word} (hu : u.toNat < 255 * 128) (hv : v.toNat < 255 * 128) :
    wordValue u ≤ wordValue v ↔ u.toNat ≤ v.toNat := by
  have h := strictMonoOn_wordValue.le_iff_le hu hv
  simpa only [BitVec.ofNat_toNat, BitVec.setWidth_eq] using h

/-- The magnitude does not read the sign. -/
theorem magnitude_negWord (k : Nat) (hk : k < 0x8000) :
    magnitude (decompose (negWord k)) = magnitude (decompose (BitVec.ofNat 16 k)) := by
  have hnum : (BitVec.ofNat 16 k).toNat = k := by
    rw [BitVec.toNat_ofNat]
    omega
  have hexp : expField (negWord k) = expField (BitVec.ofNat 16 k) := by
    rw [← BitVec.toNat_inj, expField_toNat, expField_toNat, toNat_negWord k hk, hnum]
    omega
  have hmant : mantField (negWord k) = mantField (BitVec.ofNat 16 k) := by
    rw [← BitVec.toNat_inj, mantField_toNat, mantField_toNat, toNat_negWord k hk, hnum]
    omega
  have hclass : classify (negWord k) = classify (BitVec.ofNat 16 k) := by
    rw [classify, classify, hexp, hmant]
  simp only [magnitude, significand, decompose, hclass, hexp, hmant]

theorem wordValue_negWord (k : Nat) (hk : k < 0x8000) :
    wordValue (negWord k) = -wordValue (BitVec.ofNat 16 k) := by
  have hneg : signField (negWord k) = true := by
    rw [signField_iff, toNat_negWord k hk]
    omega
  have hpos : signField (BitVec.ofNat 16 k) = false := by
    rw [signField_eq_false_iff, BitVec.toNat_ofNat]
    omega
  rw [wordValue, wordValue, hneg, hpos, if_pos rfl, if_neg (by decide), magnitude_negWord k hk]

theorem lt_of_mem_windowIndices {p : Params} {k : Nat} (hk : k ∈ windowIndices p) : k < 255 * 128 :=
  ((mem_windowIndices_iff_expField p k).mp hk).1.2

theorem wordValue_negWord_lt_iff {p : Params} {i j : Nat} (hi : i ∈ windowIndices p)
    (hj : j ∈ windowIndices p) : wordValue (negWord i) < wordValue (negWord j) ↔ j < i := by
  rw [wordValue_negWord i hi.1, wordValue_negWord j hj.1, neg_lt_neg_iff]
  exact strictMonoOn_wordValue.lt_iff_lt (lt_of_mem_windowIndices hj) (lt_of_mem_windowIndices hi)

/-! Monotonicity. -/

/-- The number of the response to the negative word of a magnitude number. -/
def responseNumber (c : Configuration) (base2 : Bool) (k : Nat) : Nat := (respond c base2 (negWord k)).toNat

theorem wordValue_respond_le_iff (c : Configuration) (base2 : Bool) {i j : Nat}
    (hi : i ∈ windowIndices c.params) (hj : j ∈ windowIndices c.params) :
    wordValue (respond c base2 (negWord i)) ≤ wordValue (respond c base2 (negWord j)) ↔
      responseNumber c base2 i ≤ responseNumber c base2 j := by
  have hfinite {k : Nat} (hk : k ∈ windowIndices c.params) :
      (respond c base2 (negWord k)).toNat < 255 * 128 :=
    (datapathResultsAreAtMostOne c base2 _ hk.2).2.2.trans_lt (by norm_num)
  exact wordValue_le_iff (hfinite hi) (hfinite hj)

/-- Monotone in value is antitone in magnitude number. -/
theorem monotone_iff_antitoneOn (c : Configuration) :
    Monotone c ↔ ∀ base2, AntitoneOn (responseNumber c base2) (windowIndices c.params) := by
  constructor
  · intro h base2 i hi j hj hij
    obtain rfl | hlt := hij.eq_or_lt
    · exact le_rfl
    · exact (wordValue_respond_le_iff c base2 hj hi).mp
        (h base2 _ _ hj.2 hi.2 ((wordValue_negWord_lt_iff hj hi).mpr hlt))
  · intro h base2 x₁ x₂ hx₁ hx₂ hlt
    obtain ⟨i, hi, rfl⟩ := exists_eq_negWord x₁ hx₁.1
    obtain ⟨j, hj, rfl⟩ := exists_eq_negWord x₂ hx₂.1
    have hji := (wordValue_negWord_lt_iff (p := c.params) ⟨hi, hx₁⟩ ⟨hj, hx₂⟩).mp hlt
    exact (wordValue_respond_le_iff c base2 ⟨hi, hx₁⟩ ⟨hj, hx₂⟩).mpr
      (h base2 ⟨hj, hx₂⟩ ⟨hi, hx₁⟩ hji.le)

theorem monotoneCheck_iff (c : Configuration) :
    monotoneCheck c = true ↔ ∀ base2, ∀ k ∈ windowIndices c.params, k + 1 ∈ windowIndices c.params →
      responseNumber c base2 (k + 1) ≤ responseNumber c base2 k := by
  simp only [monotoneCheck, List.all_eq_true, List.mem_range, Bool.or_eq_true, Bool.not_eq_true',
    ← Bool.not_eq_true, ← imp_iff_not_or, decide_eq_true_eq, Bool.and_eq_true]
  constructor
  · intro h base2 k hk hnext
    have hlt := hnext.1
    exact h k (by omega) ⟨(mem_windowIndices_iff _ c.sound k hk.1).mp hk,
      (mem_windowIndices_iff _ c.sound _ hlt).mp hnext⟩ base2 (by cases base2 <;> simp)
  · intro h k hlt ⟨hk, hnext⟩ base2 _
    exact h base2 k ((mem_windowIndices_iff _ c.sound k (by omega)).mpr hk)
      ((mem_windowIndices_iff _ c.sound _ (by omega)).mpr hnext)

/-- Settles O38: over an interval, neighbours decide the order of all. -/
theorem exhaustiveCheckDecidesMonotonicity : Obligations.ExhaustiveCheckDecidesMonotonicity := by
  intro c
  rw [monotoneCheck_iff, monotone_iff_antitoneOn]
  refine forall_congr' fun base2 => ⟨fun h => ?_, fun h k hk hnext => h hk hnext (Nat.le_succ k)⟩
  exact antitoneOn_of_add_one_le (ordConnected_windowIndices c.params) fun k _ => h k

/-- Settles O51: the check is the two checks together. -/
theorem acceptanceIsDecidedByEvaluation : Obligations.AcceptanceIsDecidedByEvaluation := by
  intro c ulpBound
  rw [Configuration.acceptable, Bool.and_eq_true, exhaustiveCheckDecidesBoundedError,
    exhaustiveCheckDecidesMonotonicity]

end Sys2Proof.Machine
